-- ==== Sys2Proof/Word.lean ====
section
/-! DEFINITION. The types of the values the block handles: bytes and code units, the request and response words,
the group value, digits, and a group of five like things. -/

namespace Sys2Proof

/-- A byte of a Byte Buffer, or one character code unit (00_scope R5: `BYTE_BITS` = `CHAR_BITS` = 8). -/
abbrev Byte := BitVec 8

/-- The group value `W`, `WORD_BITS` = 32 (00_scope R5). -/
abbrev GroupWord := BitVec 32

/-- A request word `REQ` (30_encoding R41). -/
abbrev Request := BitVec 42

/-- The 40-bit operand or result field (30_encoding R41, R45). -/
abbrev Field40 := BitVec 40

/-- A response word `RSP` (30_encoding R45). -/
abbrev Response := BitVec 54

/-- A digit value, 0..84 (00_scope R9; 40_alphabet_roms R68: `Digit = 0..84`). -/
abbrev Digit := Fin 85

/-- The text side of one group: five like things in text order, the first of weight 85^4 (20_memory R24). -/
structure Chunk (α : Type) where
  c0 : α
  c1 : α
  c2 : α
  c3 : α
  c4 : α
  deriving DecidableEq, Repr

/-- Apply one function to all five members of a group. -/
def Chunk.map {α β : Type} (f : α → β) (g : Chunk α) : Chunk β :=
  ⟨f g.c0, f g.c1, f g.c2, f g.c3, f g.c4⟩

/-- The members in text order. -/
def Chunk.toList {α : Type} (g : Chunk α) : List α := [g.c0, g.c1, g.c2, g.c3, g.c4]

/-- The members with their index 0..4 in the group (42_decoder R81: `for i in 0, 1, 2, 3, 4`). -/
def Chunk.indexed {α : Type} (g : Chunk α) : List (Fin 5 × α) :=
  [(0, g.c0), (1, g.c1), (2, g.c2), (3, g.c3), (4, g.c4)]

/-- The number a group of digits spells, most significant digit first: `Σ digit[i] × 85^(4−i)` (20_memory R24). -/
def Chunk.value (g : Chunk Digit) : Nat :=
  g.c0.val * 85 ^ 4 + g.c1.val * 85 ^ 3 + g.c2.val * 85 ^ 2 + g.c3.val * 85 + g.c4.val

end Sys2Proof
end

