-- ==== Sys2Proof/Machine/Operands.lean ====
section
/-! DEFINITION. Operand and result forms: the byte order of a group value (20_memory R23) and the packing of five
characters, of a group value, of a character and of a reverse-table word in the 40-bit field (30_encoding R43 to R46). -/

namespace Sys2Proof.Machine

/-- The group value of four bytes in buffer order, big-endian: `W[31:24] = b0 … W[7:0] = b3` (20_memory R23). -/
def wordOfBytes (b0 b1 b2 b3 : Byte) : GroupWord := (b0 ++ b1 ++ b2 ++ b3 : BitVec (8 + 8 + 8 + 8))

/-- The four bytes of a group value, most significant first (42_decoder R90). -/
def bytesOfWord (w : GroupWord) : List Byte :=
  [w.extractLsb' 24 8, w.extractLsb' 16 8, w.extractLsb' 8 8, w.extractLsb' 0 8]

/-- Five characters in the 40-bit field, first character in bits 39:32 (30_encoding R44, R46). -/
def packChars (g : Chunk Byte) : Field40 := (g.c0 ++ g.c1 ++ g.c2 ++ g.c3 ++ g.c4 : BitVec (8 + 8 + 8 + 8 + 8))

/-- The five characters of a 40-bit field, first character in bits 39:32 (30_encoding R44, R46). -/
def unpackChars (f : Field40) : Chunk Byte :=
  ⟨f.extractLsb' 32 8, f.extractLsb' 24 8, f.extractLsb' 16 8, f.extractLsb' 8 8, f.extractLsb' 0 8⟩

/-- The result of `DEC`: `result[31:0] = W`, the rest zero (30_encoding R46). -/
def packWord (w : GroupWord) : Field40 := w.setWidth 40

/-- The group value of a 40-bit field: its low 32 bits (30_encoding R43, R46). -/
def unpackWord (f : Field40) : GroupWord := f.extractLsb' 0 32

/-- The result of `FWD`: `result[7:0]` the character, the rest zero (30_encoding R46). -/
def packChar (c : Byte) : Field40 := c.setWidth 40

/-- The digit of a `FWD` operand as an address of the forward ROM; a wider address is zero-extended (30_encoding R44,
20_memory R20; log 5). -/
def fwdAddrOfOperand (d : BitVec 7) (addrBits : Nat) : BitVec addrBits := d.setWidth addrBits

/-- The result of `REV`: `result[8:0]` the reverse-table word, `result[39:9]` zero (30_encoding R46); a wider word has
zeros above bit 8 (log 5). -/
def packRevWord {wordBits : Nat} (e : BitVec wordBits) : Field40 := (e.setWidth 9).setWidth 40

end Sys2Proof.Machine
end

