-- ==== Sys2Proof/Syntax.lean ====
section
/-! DEFINITION. The syntax: the four operations of 30_encoding R42 with their typed operands. -/

namespace Sys2Proof

/-- The operations of the block, one constructor per row of spec/opcode_table.json, operands in the order of R54. -/
inductive Instr where
  /-- `ENC W`: encode one group value (41_encoder R72). -/
  | enc (w : BitVec 32)
  /-- `DEC c0 c1 c2 c3 c4`: decode one group of five code units (42_decoder R83). -/
  | dec (c0 c1 c2 c3 c4 : BitVec 8)
  /-- `FWD d`: forward table lookup; all of 0..127 can be asked for (40_alphabet_roms R66). -/
  | fwd (d : BitVec 7)
  /-- `REV c`: reverse table lookup (40_alphabet_roms R67). -/
  | rev (c : BitVec 8)
  deriving DecidableEq, Repr

end Sys2Proof
end

