-- ==== Sys2Proof/WellFormed.lean ====
section
/-! DEFINITION. What a well-formed request is: the word that carries an operation has its reserved operand bits zero
(30_encoding R48). -/

namespace Sys2Proof

/-- The checks of R48 on a request word, by the value of `op`: `ENC` needs bits 39:32 zero, `DEC` has no reserved bits,
`FWD` needs bits 39:7 zero, `REV` needs bits 39:8 zero. -/
def Request.wellFormed (r : Request) : Bool :=
  match (r.extractLsb' 40 2).toNat with
  | 0 => r.extractLsb' 32 8 == 0
  | 1 => true
  | 2 => r.extractLsb' 7 33 == 0
  | _ => r.extractLsb' 8 32 == 0

/-- The operand value of an operation as the 40-bit field carries it (R43, R44), as a number. -/
def Instr.operandNat : Instr → Nat
  | .enc w => w.toNat
  | .dec c0 c1 c2 c3 c4 =>
    c0.toNat * 2 ^ 32 + c1.toNat * 2 ^ 24 + c2.toNat * 2 ^ 16 + c3.toNat * 2 ^ 8 + c4.toNat
  | .fwd d => d.toNat
  | .rev c => c.toNat

/-- The `op` field of an operation (R42), as a number. -/
def Instr.opNat : Instr → Nat
  | .enc _ => 0
  | .dec _ _ _ _ _ => 1
  | .fwd _ => 2
  | .rev _ => 3

/-- An operation is well formed when the word made of its `op` and its operand passes the checks of R48. Every operand
value the typed fields hold is one the spec admits (R43, R44, R49), so every term of `Instr` passes. -/
def Instr.wellFormed (i : Instr) : Bool :=
  Request.wellFormed (BitVec.ofNat 42 (i.opNat * 2 ^ 40 + i.operandNat))

end Sys2Proof
end

