-- ==== Sys2Proof/Decode.lean ====
section
/-! DEFINITION. Decoding a request word (30_encoding R51), the encoder, the table of R54, and the host's view of a
table word. -/

namespace Sys2Proof

/-- `op` = `REQ[41:40]` (30_encoding R41). -/
def opOf (r : Request) : BitVec 2 := r.extractLsb' 40 2

/-- `operand` = `REQ[39:0]` (30_encoding R41). -/
def operandOf (r : Request) : Field40 := r.extractLsb' 0 40

/-- Why a request word is no operation: a reserved operand bit of its `op` is not zero (30_encoding R48). The block's
answer is the same for all three. -/
inductive Reject where
  /-- `op` = 00 with `operand[39:32]` not zero. -/
  | encReserved
  /-- `op` = 10 with `operand[39:7]` not zero. -/
  | fwdReserved
  /-- `op` = 11 with `operand[39:8]` not zero. -/
  | revReserved
  deriving DecidableEq, Repr

/-- Decode a request word: 30_encoding R51, total on all 2^42 words. -/
def decode (r : Request) : Except Reject Instr :=
  let o := operandOf r
  if opOf r = 0b00#2 then
    if o.extractLsb' 32 8 ≠ 0 then .error .encReserved else .ok (.enc (o.extractLsb' 0 32))
  else if opOf r = 0b01#2 then
    .ok (.dec (o.extractLsb' 32 8) (o.extractLsb' 24 8) (o.extractLsb' 16 8) (o.extractLsb' 8 8) (o.extractLsb' 0 8))
  else if opOf r = 0b10#2 then
    if o.extractLsb' 7 33 ≠ 0 then .error .fwdReserved else .ok (.fwd (o.extractLsb' 0 7))
  else
    if o.extractLsb' 8 32 ≠ 0 then .error .revReserved else .ok (.rev (o.extractLsb' 0 8))

/-- The request word of an operation (30_encoding R42 to R44, R54). -/
def encode (i : Instr) : Request :=
  match i with
  | .enc w => (0b00#2 ++ 0#8 ++ w : BitVec (2 + 8 + 32))
  | .dec c0 c1 c2 c3 c4 => (0b01#2 ++ c0 ++ c1 ++ c2 ++ c3 ++ c4 : BitVec (2 + 8 + 8 + 8 + 8 + 8))
  | .fwd d => (0b10#2 ++ 0#33 ++ d : BitVec (2 + 33 + 7))
  | .rev c => (0b11#2 ++ 0#32 ++ c : BitVec (2 + 32 + 8))

/-- One row of the table of 30_encoding R54. -/
structure TableRow where
  mnemonic : String
  pattern : Request
  mask : Request
  deriving DecidableEq, Repr

/-- The four rows of 30_encoding R54. -/
def opcodeTable : List TableRow :=
  [⟨"ENC", 0x00000000000#42, 0x3FF00000000#42⟩,
   ⟨"DEC", 0x10000000000#42, 0x30000000000#42⟩,
   ⟨"FWD", 0x20000000000#42, 0x3FFFFFFFF80#42⟩,
   ⟨"REV", 0x30000000000#42, 0x3FFFFFFFF00#42⟩]

/-- "A request word `r` selects the row with `r AND mask = match`" (30_encoding R54). -/
def TableRow.selects (row : TableRow) (r : Request) : Bool := r &&& row.mask == row.pattern

/-- The mnemonic of an operation (30_encoding R42). -/
def mnemonicOf : Instr → String
  | .enc _ => "ENC"
  | .dec _ _ _ _ _ => "DEC"
  | .fwd _ => "FWD"
  | .rev _ => "REV"

/-- The request word whose low `nbits` bits are those of `w` and whose other bits are zero. DESIGN CHOICE (log 10): a
number that needs more than 42 bits is no request word. -/
def requestOfTableWord (nbits w : Nat) : Option Request :=
  if w % 2 ^ nbits < 2 ^ 42 then some (BitVec.ofNat 42 (w % 2 ^ nbits)) else none

/-- The operation the decoder reads from a word numbered as spec/opcode_table.json numbers it (bit 0 of the table is
`REQ[0]`, 30_encoding R54). -/
def decodeTableWord (nbits w : Nat) : Option Instr :=
  match requestOfTableWord nbits w with
  | none => none
  | some r =>
    match decode r with
    | .ok i => some i
    | .error _ => none

end Sys2Proof
end

