-- ==== Sys2Proof/Machine/Flags.lean ====
section
/-! DEFINITION. The block has no flags (10_state R13): the outcome of an operation is in the `status`, `err_pos` and
`err_val` fields of its own response. This file holds those fields: the errors, their codes, and the response word. -/

namespace Sys2Proof.Machine

/-- The outcomes of 60_exceptions R100 that have a code. -/
inductive Status where
  | ok
  | invalidLength
  | invalidCharacter
  | numericOverflow
  | digitRange
  | illegalRequest
  deriving DecidableEq, Repr

/-- The `status` code (60_exceptions R100); codes 6 and 7 are never produced. -/
def Status.code : Status → BitVec 3
  | .ok => 0
  | .invalidLength => 1
  | .invalidCharacter => 2
  | .numericOverflow => 3
  | .digitRange => 4
  | .illegalRequest => 5

/-- What `DecGroup` can raise (00_scope R8, 42_decoder R81). -/
inductive DecError where
  /-- Position 0..4 in the group and code unit of the first invalid character (42_decoder R84). -/
  | invalidCharacter (pos : Fin 5) (val : Byte)
  /-- Five valid characters whose value is 2^32 or more, strict mode (42_decoder R82). -/
  | numericOverflow
  deriving DecidableEq, Repr

/-- What a request can raise (60_exceptions R100; InvalidLength is raised by calls only). -/
inductive Error where
  | invalidCharacter (pos : Fin 5) (val : Byte)
  | numericOverflow
  | digitRange
  | illegalRequest
  deriving DecidableEq, Repr

/-- An error of `DecGroup` as the error of its `DEC` request (42_decoder R83). -/
def DecError.toError : DecError → Error
  | .invalidCharacter pos val => .invalidCharacter pos val
  | .numericOverflow => .numericOverflow

/-- The kind of an error (60_exceptions R100). -/
def Error.status : Error → Status
  | .invalidCharacter _ _ => .invalidCharacter
  | .numericOverflow => .numericOverflow
  | .digitRange => .digitRange
  | .illegalRequest => .illegalRequest

/-- `err_pos`: the index of the offending character for InvalidCharacter, otherwise 0 (30_encoding R45). -/
def Error.pos : Error → BitVec 3
  | .invalidCharacter pos _ => BitVec.ofNat 3 pos.val
  | _ => 0

/-- `err_val`: the offending code unit for InvalidCharacter, otherwise 0 (30_encoding R45). -/
def Error.val : Error → Byte
  | .invalidCharacter _ val => val
  | _ => 0

/-- The answer to one request: a result, or an error with no result component (30_encoding R47). -/
abbrev Answer := Except Error Field40

/-- The fields of a response word in their places (30_encoding R45). -/
def responseWord (status : BitVec 3) (errPos : BitVec 3) (errVal : Byte) (result : Field40) : Response :=
  (status ++ errPos ++ errVal ++ result : BitVec (3 + 3 + 8 + 40))

/-- The word of an answer: OK has the result and zero error fields, an error has a zero result (30_encoding R45, R47;
60_exceptions R108). -/
def packAnswer : Answer → Response
  | .ok result => responseWord Status.ok.code 0 0 result
  | .error e => responseWord e.status.code e.pos e.val 0

/-- `RSP[53:51]` (30_encoding R45). -/
def rspStatus (r : Response) : BitVec 3 := r.extractLsb' 51 3
/-- `RSP[50:48]` (30_encoding R45). -/
def rspErrPos (r : Response) : BitVec 3 := r.extractLsb' 48 3
/-- `RSP[47:40]` (30_encoding R45). -/
def rspErrVal (r : Response) : Byte := r.extractLsb' 40 8
/-- `RSP[39:0]` (30_encoding R45). -/
def rspResult (r : Response) : Field40 := r.extractLsb' 0 40

/-- A host's reading of a response word. The words the block never produces are refused: status 1, 6 and 7
(30_encoding R49; 93_implementation_defined U11), a result beside an error, error fields outside InvalidCharacter, a
position above 4 (30_encoding R45, R47). -/
def parseResponse (r : Response) : Option Answer :=
  if rspStatus r = Status.ok.code then
    if rspErrPos r = 0 ∧ rspErrVal r = 0 then some (.ok (rspResult r)) else none
  else if rspResult r ≠ 0 then none
  else if rspStatus r = Status.invalidCharacter.code then
    if h : (rspErrPos r).toNat < 5 then some (.error (.invalidCharacter ⟨(rspErrPos r).toNat, h⟩ (rspErrVal r)))
    else none
  else if rspErrPos r ≠ 0 ∨ rspErrVal r ≠ 0 then none
  else if rspStatus r = Status.numericOverflow.code then some (.error .numericOverflow)
  else if rspStatus r = Status.digitRange.code then some (.error .digitRange)
  else if rspStatus r = Status.illegalRequest.code then some (.error .illegalRequest)
  else none

end Sys2Proof.Machine
end

