-- ==== Sys2Proof/Config.lean ====
section
/-! DEFINITION. The identity of the block (00_scope R1), the constants of 00_scope R5, the static parameters of 00_scope R6
as plain data, and the constraints R6 puts on them. The default values stand in Machine/Alphabet.lean. -/

namespace Sys2Proof

/-- "The identity string a model should carry" (00_scope R1), letter for letter. The block it names consists of four units:
`alphabet_forward_rom` is `Machine.fwdRom`, `alphabet_reverse_rom` is `Machine.revRom`, `base85_encoder` is
`Machine.encGroup` and `base85_decoder` is `Machine.decGroup`. -/
def identity : String :=
  "base85_codec / ironbee/ironbee / document the source (software respecification, \"v7\" per the scope note)"

/-- `RADIX` (00_scope R5). -/
abbrev radix : Nat := 85
/-- `CHUNK_BYTES` (00_scope R5). -/
abbrev chunkBytes : Nat := 4
/-- `CHUNK_CHARS` (00_scope R5). -/
abbrev chunkChars : Nat := 5
/-- `DIGIT_MAX` (00_scope R5). -/
abbrev digitMax : Nat := 84
/-- `P4` = 85^4 (00_scope R5). -/
abbrev place4 : Nat := 52200625
/-- `P3` = 85^3 (00_scope R5). -/
abbrev place3 : Nat := 614125
/-- `P2` = 85^2 (00_scope R5). -/
abbrev place2 : Nat := 7225
/-- `P1` = 85 (00_scope R5). -/
abbrev place1 : Nat := 85
/-- `P5` = 85^5 (00_scope R5). -/
abbrev place5 : Nat := 4437053125

/-- The static parameters of 00_scope R6, fixed when the block is built; no operation reads them as data or writes
them (10_state R14). DESIGN CHOICE (log 1): they are plain data held in State, so that a statement about every state
is a statement about every value of the parameters. -/
structure Config where
  /-- `ALPHABET`, digit to code unit (R6, 40_alphabet_roms R61). -/
  alphabet : Vector Byte 85
  /-- `STRICT_OVERFLOW` (R6, 42_decoder R82). -/
  strictOverflow : Bool
  /-- `ACC_BITS` (R6, 42_decoder R86). -/
  accBits : Nat
  /-- `REV_WORD_BITS` (R6, 20_memory R21). -/
  revWordBits : Nat
  /-- `FWD_ADDR_BITS` (R6, 20_memory R20). -/
  fwdAddrBits : Nat
  deriving DecidableEq, Repr

/-- An address of the forward ROM, `FWD_ADDR_BITS` wide (20_memory R20). -/
abbrev Config.FwdAddr (cfg : Config) := BitVec cfg.fwdAddrBits

/-- A word of the reverse ROM, `REV_WORD_BITS` wide (20_memory R21). -/
abbrev Config.RevWord (cfg : Config) := BitVec cfg.revWordBits

/-- `ALPHABET(d)`: the source's `digitToChar(d: 0..84)` (40_alphabet_roms R62). -/
def Config.digitToChar (cfg : Config) (d : Digit) : Byte := cfg.alphabet[d]

/-- The 23 punctuation characters of 40_alphabet_roms R60. -/
def punctuation : List Byte :=
  [0x21, 0x23, 0x24, 0x25, 0x27, 0x28, 0x29, 0x2A, 0x2B, 0x2D, 0x2E, 0x2F] ++
  [0x3A, 0x3C, 0x3D, 0x3E, 0x3F, 0x40, 0x5B, 0x5D, 0x5E, 0x5F] ++ [0x60]

/-- The set of 85 characters of 40_alphabet_roms R60: digits, capital and small letters, and the punctuation. -/
def isSymbol (c : Byte) : Bool :=
  (0x30 ≤ c.toNat && c.toNat ≤ 0x39) || (0x41 ≤ c.toNat && c.toNat ≤ 0x5A) ||
  (0x61 ≤ c.toNat && c.toNat ≤ 0x7A) || punctuation.contains c

/-- The constraints of 00_scope R6 on the parameters: the alphabet's range is exactly the set of R60, it is injective,
its first two characters are the two the known vectors fix, the accumulator has at least 33 bits, the "marker value 256
needs 9 bits" and the "85 entries need 7 address bits". -/
structure Config.Legal (cfg : Config) : Prop where
  range : ∀ c : Byte, (∃ d : Digit, cfg.digitToChar d = c) ↔ isSymbol c = true
  injective : ∀ d e : Digit, cfg.digitToChar d = cfg.digitToChar e → d = e
  zero : cfg.digitToChar 0 = 0x21
  one : cfg.digitToChar 1 = 0x23
  accBits : 33 ≤ cfg.accBits
  revWordBits : 9 ≤ cfg.revWordBits
  fwdAddrBits : 7 ≤ cfg.fwdAddrBits

end Sys2Proof
end

