-- ==== Sys2Proof/Machine/Alphabet.lean ====
section
/-! DEFINITION. The default parameters of 00_scope R6: the default table `ALPHABET` of 40_alphabet_roms R61,
`STRICT_OVERFLOW` = true, `ACC_BITS` = 33, `REV_WORD_BITS` = 9, `FWD_ADDR_BITS` = 7. -/

namespace Sys2Proof.Machine

/-- Digits 0..11, punctuation before the decimal digits (40_alphabet_roms R61). -/
def alphabetRow0 : List Byte := [0x21, 0x23, 0x24, 0x25, 0x27, 0x28, 0x29, 0x2A, 0x2B, 0x2D, 0x2E, 0x2F]
/-- Digits 12..21, the decimal digits (40_alphabet_roms R61). -/
def alphabetRow1 : List Byte := [0x30, 0x31, 0x32, 0x33, 0x34, 0x35, 0x36, 0x37, 0x38, 0x39]
/-- Digits 22..27 (40_alphabet_roms R61). -/
def alphabetRow2 : List Byte := [0x3A, 0x3C, 0x3D, 0x3E, 0x3F, 0x40]
/-- Digits 28..40, capitals A to M (40_alphabet_roms R61). -/
def alphabetRow3 : List Byte := [0x41, 0x42, 0x43, 0x44, 0x45, 0x46, 0x47, 0x48, 0x49, 0x4A, 0x4B, 0x4C, 0x4D]
/-- Digits 41..53, capitals N to Z (40_alphabet_roms R61). -/
def alphabetRow4 : List Byte := [0x4E, 0x4F, 0x50, 0x51, 0x52, 0x53, 0x54, 0x55, 0x56, 0x57, 0x58, 0x59, 0x5A]
/-- Digits 54..58 (40_alphabet_roms R61). -/
def alphabetRow5 : List Byte := [0x5B, 0x5D, 0x5E, 0x5F, 0x60]
/-- Digits 59..71, small letters a to m (40_alphabet_roms R61). -/
def alphabetRow6 : List Byte := [0x61, 0x62, 0x63, 0x64, 0x65, 0x66, 0x67, 0x68, 0x69, 0x6A, 0x6B, 0x6C, 0x6D]
/-- Digits 72..84, small letters n to z (40_alphabet_roms R61). -/
def alphabetRow7 : List Byte := [0x6E, 0x6F, 0x70, 0x71, 0x72, 0x73, 0x74, 0x75, 0x76, 0x77, 0x78, 0x79, 0x7A]

/-- The default `ALPHABET`, digit 0 first (40_alphabet_roms R61). DESIGN CHOICE and PRESUMED as the spec itself marks
them (log 2): the order is the spec's decision D4, the set's last element D5, the codes are ASCII, D6. -/
def defaultAlphabet : Vector Byte 85 :=
  ⟨(alphabetRow0 ++ alphabetRow1 ++ alphabetRow2 ++ alphabetRow3 ++ alphabetRow4 ++ alphabetRow5 ++ alphabetRow6 ++
    alphabetRow7).toArray, rfl⟩

/-- The parameters at the defaults of 00_scope R6 (logs 2 to 5). -/
def defaultConfig : Config :=
  { alphabet := defaultAlphabet, strictOverflow := true, accBits := 33, revWordBits := 9, fwdAddrBits := 7 }

end Sys2Proof.Machine
end

