-- ==== Sys2Proof/Machine/State.lean ====
section
/-! DEFINITION. The machine's state, the reasons a step can stop, and the state after reset. -/

namespace Sys2Proof.Machine

/-- The block has no mutable state (10_state R10). State holds its static parameters, which no step writes, and the
model's own bookkeeping, which no operation reads: what hosts have presented and what has been answered. -/
structure State where
  /-- The static parameters: the tables' content and the overflow policy (00_scope R6, 10_state R15). Log 1. -/
  config : Config
  /-- Request words presented by hosts and not yet taken, the next one first (70_reset R127). Log 6. -/
  pending : List Request
  /-- The log of the request words taken, oldest first (10_state R10). Log 7. -/
  answered : List Request
  /-- The log of the response words given, oldest first (30_encoding R45). Log 7. -/
  responses : List Response
  deriving DecidableEq, Repr

/-- The faults of the machine: none. Every error is a defined response after which the block goes on, and the block is
never stuck (60_exceptions R108, R110; 70_reset R125). No constructor, so nobody raises one: safe (log 15). -/
inductive Fault
  deriving DecidableEq, Repr

/-- The refusals of the machine. -/
inductive Refusal where
  /-- An operation without a meaning yet, raised by its arm in Dispatch alone; no arm raises it. Safe: a run stops where
  the hardware goes on. -/
  | notModelled (mnemonic : String)
  deriving DecidableEq, Repr

/-- The state right after reset: reset has no architectural effect (70_reset R120), the parameters and tables are at the
defaults (R121, R122); nothing presented, nothing answered (logs 6, 7). -/
def State.reset : State := ⟨defaultConfig, [], [], []⟩

end Sys2Proof.Machine
end

