-- ==== Sys2Proof/Machine/Ops.lean ====
section
/-! DEFINITION. The named operations over the state: presenting and taking a request, and giving the response. Raising
an error is ONE shared operation, `raise`, and there is no return from one (60_exceptions R108, R109). -/

namespace Sys2Proof.Machine

/-- A host presents a request: it is taken after those already presented (70_reset R127: the model fixes arrival order,
log 6). -/
def present (r : Request) (s : State) : State := { s with pending := s.pending ++ [r] }

/-- A host presents a request that is to be taken next (log 9). -/
def presentFirst (r : Request) (s : State) : State := { s with pending := r :: s.pending }

/-- Take the next request word, if one is presented, and log it. -/
def takeRequest (s : State) : Option (Request × State) :=
  match s.pending with
  | [] => none
  | r :: rest => some (r, { s with pending := rest, answered := s.answered ++ [r] })

/-- Give one response word. -/
def respond (w : Response) (s : State) : State := { s with responses := s.responses ++ [w] }

/-- End an operation with status OK and a result (30_encoding R46). -/
def finish (result : Field40) (s : State) : State := respond (packAnswer (.ok result)) s

/-- Raise an error: the response word gets the status code, the error fields and a zero result, and nothing else
happens: nothing is saved, no mode changes, no control goes anywhere (60_exceptions R108). -/
def raise (e : Error) (s : State) : State := respond (packAnswer (.error e)) s

/-- End an operation with its answer. -/
def answer (a : Answer) (s : State) : State :=
  match a with
  | .ok result => finish result s
  | .error e => raise e s

/-- The answer to a request word that is no operation: IllegalRequest, whatever reserved bit it has set, before anything
else and without a table read (30_encoding R48). -/
def rejectRequest (_ : Reject) (s : State) : State := raise .illegalRequest s

end Sys2Proof.Machine
end

