-- ==== Sys2Proof/Machine/Roms.lean ====
section
/-! DEFINITION. The two ROMs: the forward table by address, the reverse table as an option and as the image of it
that the ROM holds. Reads change nothing (20_memory R28) and there is no write (40_alphabet_roms R69). -/

namespace Sys2Proof.Machine

/-- `INVALID` = 256, the reverse table's marker, as a word of the reverse ROM (00_scope R5, 20_memory R21). -/
def invalidMarker (cfg : Config) : cfg.RevWord := BitVec.ofNat cfg.revWordBits 256

/-- `FwdRom[a]`: addresses 0..84 hold `ALPHABET(a)`; 85..127 hold nothing, and reading one is DigitRange
(20_memory R20, 40_alphabet_roms R62). So is reading any higher address of a wider space (log 5). -/
def fwdRom (cfg : Config) (a : cfg.FwdAddr) : Except Error Byte :=
  if h : a.toNat < 85 then .ok (cfg.digitToChar ⟨a.toNat, h⟩) else .error .digitRange

/-- `charToDigit`: the digit whose character `c` is, if there is one (40_alphabet_roms R63, R68). For a legal alphabet
the digit is unique; for any other the first one is taken (log 16). -/
def charToDigit (cfg : Config) (c : Byte) : Option Digit :=
  (List.finRange 85).find? (fun d => cfg.digitToChar d == c)

/-- `RevRom[c]`: the hardware image of `charToDigit`, the marker for none (40_alphabet_roms R64, R68). -/
def revRom (cfg : Config) (c : Byte) : cfg.RevWord :=
  match charToDigit cfg c with
  | none => invalidMarker cfg
  | some d => BitVec.ofNat cfg.revWordBits d.val

end Sys2Proof.Machine
end

