-- ==== Sys2Proof/Machine/Decoder.lean ====
section
/-! DEFINITION. The decoder unit and the DEC operation. -/

namespace Sys2Proof.Machine

/-- One multiply-accumulate of the fold: `acc × 85 + e`, held in an accumulator of `ACC_BITS` bits (42_decoder R81, R86;
with 33 bits or more nothing is lost). -/
def mulAcc (cfg : Config) (acc : Nat) (d : Digit) : Nat := (acc * radix + d.val) % 2 ^ cfg.accBits

/-- The fold of 42_decoder R81 over the characters with their positions, left to right, stopping at the first character
that is not in the alphabet (R84). The marker never enters the arithmetic (40_alphabet_roms R68). -/
def decFold (cfg : Config) : List (Fin 5 × Byte) → Nat → Except DecError Nat
  | [], acc => .ok acc
  | (i, c) :: rest, acc =>
    match charToDigit cfg c with
    | none => .error (.invalidCharacter i c)
    | some d => decFold cfg rest (mulAcc cfg acc d)

/-- The overflow test after the fold: a value of 2^32 or more is rejected in strict mode and taken modulo 2^32 otherwise
(42_decoder R82). -/
def narrowAcc (cfg : Config) (acc : Nat) : Except DecError GroupWord :=
  if 2 ^ 32 ≤ acc ∧ cfg.strictOverflow = true then .error .numericOverflow else .ok (BitVec.ofNat 32 acc)

/-- `DecGroup` (42_decoder R81). -/
def decGroup (cfg : Config) (g : Chunk Byte) : Except DecError GroupWord :=
  match decFold cfg g.indexed 0 with
  | .error e => .error e
  | .ok acc => narrowAcc cfg acc

/-- `DEC c0 c1 c2 c3 c4` (42_decoder R83). -/
def execDec (c0 c1 c2 c3 c4 : BitVec 8) (s : State) : Host.Outcome State Fault Refusal :=
  match decGroup s.config ⟨c0, c1, c2, c3, c4⟩ with
  | .ok w => .next (finish (packWord w) s)
  | .error e => .next (raise e.toError s)

end Sys2Proof.Machine
end

