-- ==== Sys2Proof/Machine/Encoder.lean ====
section
/-! DEFINITION. The encoder unit and the ENC operation. -/

namespace Sys2Proof.Machine

/-- A number below 85 as a digit; the quotient and remainders of `encDigits` are below 85 by construction, never by a
check at run time (41_encoder R73). -/
def leadingDigit (w : GroupWord) : Digit := ⟨w.toNat / place4, by have := w.isLt; unfold place4; omega⟩

/-- A remainder modulo 85 as a digit. -/
def modDigit (n : Nat) : Digit := ⟨n % 85, Nat.mod_lt n (by decide)⟩

/-- The five base-85 digits of a group value, most significant first (41_encoder R71). -/
def encDigits (w : GroupWord) : Chunk Digit :=
  ⟨leadingDigit w, modDigit (w.toNat / place3), modDigit (w.toNat / place2), modDigit (w.toNat / place1), modDigit w.toNat⟩

/-- `EncGroup` (41_encoder R71): each digit through the forward table. -/
def encGroup (cfg : Config) (w : GroupWord) : Chunk Byte := (encDigits w).map cfg.digitToChar

/-- `ENC W` (41_encoder R72). It has no error (R74). -/
def execEnc (w : BitVec 32) (s : State) : Host.Outcome State Fault Refusal :=
  .next (finish (packChars (encGroup s.config w)) s)

end Sys2Proof.Machine
end

