-- ==== Sys2Proof/Machine/Lookup.lean ====
section
/-! DEFINITION. The lookup operations FWD and REV. -/

namespace Sys2Proof.Machine

/-- `FWD d` (40_alphabet_roms R66): the character of digit `d`, or DigitRange. -/
def execFwd (d : BitVec 7) (s : State) : Host.Outcome State Fault Refusal :=
  if 84 < d.toNat then .next (raise .digitRange s)
  else
    match fwdRom s.config (fwdAddrOfOperand d s.config.fwdAddrBits) with
    | .ok c => .next (finish (packChar c) s)
    | .error e => .next (raise e s)

/-- `REV c` (40_alphabet_roms R67): the reverse-table word of `c`, always with status OK. -/
def execRev (c : BitVec 8) (s : State) : Host.Outcome State Fault Refusal :=
  .next (finish (packRevWord (revRom s.config c)) s)

end Sys2Proof.Machine
end

