-- ==== Sys2Proof/Machine/Dispatch.lean ====
section
/-! DEFINITION. One arm per operation. -/

namespace Sys2Proof.Machine

def exec (i : Instr) (s : State) : Host.Outcome State Fault Refusal :=
  match i with
  | .enc w => Sys2Proof.Machine.execEnc w s
  | .dec c0 c1 c2 c3 c4 => Sys2Proof.Machine.execDec c0 c1 c2 c3 c4 s
  | .fwd d => Sys2Proof.Machine.execFwd d s
  | .rev c => Sys2Proof.Machine.execRev c s

end Sys2Proof.Machine
end

