-- ==== Sys2Proof/Machine/Step.lean ====
section
/-! DEFINITION. The block's one step: answer the next request (30_encoding R51). -/

namespace Sys2Proof.Machine

/-- Take the next request, decode it, run it; a word that is no operation is answered IllegalRequest (R51). With no
request presented nothing happens (log 8). -/
def step (s : State) : Host.Outcome State Fault Refusal :=
  match takeRequest s with
  | none => .next s
  | some (r, s1) =>
    match decode r with
    | .ok i => exec i s1
    | .error e => .next (rejectRequest e s1)

/-- The state with the request of a table word presented so that the next step takes it (logs 9, 10). -/
def State.withFetchWord (s : State) (nbits w : Nat) : State :=
  match requestOfTableWord nbits w with
  | none => s
  | some r => presentFirst r s

end Sys2Proof.Machine
end

