-- ==== Sys2Proof/Machine/Assembler.lean ====
section
/-! DEFINITION. The assembler syntax of 30_encoding R52 and the pseudo-operations of R53: the forms, when a form is well
formed, the request it stands for, the reading of one line of text, and the writing of a response. Text is a list of
characters; what R52 does not fix (spaces, letter case of hexadecimal digits) is log 17. -/

namespace Sys2Proof.Machine

/-- The request forms of 30_encoding R52, with operands as written. -/
inductive AsmRequest where
  /-- `ENC 0xHHHHHHHH` -/
  | encWord (n : Nat)
  /-- `ENC [b0, b1, b2, b3]` -/
  | encBytes (b0 b1 b2 b3 : Nat)
  /-- `DEC "ccccc"` -/
  | decText (c0 c1 c2 c3 c4 : Char)
  /-- `DEC [c0, c1, c2, c3, c4]` -/
  | decCodes (c0 c1 c2 c3 c4 : Nat)
  /-- `FWD n` -/
  | fwd (n : Nat)
  /-- `REV 0xHH` -/
  | revCode (n : Nat)
  /-- `REV 'c'` -/
  | revChar (c : Char)
  deriving DecidableEq, Repr

/-- A line: a request, a pseudo-operation the host expands (30_encoding R53), or nothing but a comment. -/
inductive AsmLine where
  | request (r : AsmRequest)
  | encodeCall (bytes : List Nat)
  | decodeCall (text : List Char)
  | blank
  deriving DecidableEq, Repr

/-- Every number of a form fits its field and every character is an 8-bit code unit (30_encoding R52; 00_scope R7). -/
def AsmRequest.wellFormed : AsmRequest → Bool
  | .encWord n => decide (n < 2 ^ 32)
  | .encBytes b0 b1 b2 b3 => [b0, b1, b2, b3].all (fun b => decide (b < 256))
  | .decText c0 c1 c2 c3 c4 => [c0, c1, c2, c3, c4].all (fun c => decide (c.toNat < 256))
  | .decCodes c0 c1 c2 c3 c4 => [c0, c1, c2, c3, c4].all (fun c => decide (c < 256))
  | .fwd n => decide (n ≤ 127)
  | .revCode n => decide (n < 256)
  | .revChar c => decide (c.toNat < 256)

/-- The code unit of a number or of a character literal (00_scope R7). -/
def byteOfNat (n : Nat) : Byte := BitVec.ofNat 8 n

/-- The operation a form stands for (30_encoding R52). -/
def AsmRequest.toInstr : AsmRequest → Instr
  | .encWord n => .enc (BitVec.ofNat 32 n)
  | .encBytes b0 b1 b2 b3 => .enc (wordOfBytes (byteOfNat b0) (byteOfNat b1) (byteOfNat b2) (byteOfNat b3))
  | .decText c0 c1 c2 c3 c4 =>
    .dec (byteOfNat c0.toNat) (byteOfNat c1.toNat) (byteOfNat c2.toNat) (byteOfNat c3.toNat) (byteOfNat c4.toNat)
  | .decCodes c0 c1 c2 c3 c4 =>
    .dec (byteOfNat c0) (byteOfNat c1) (byteOfNat c2) (byteOfNat c3) (byteOfNat c4)
  | .fwd n => .fwd (BitVec.ofNat 7 n)
  | .revCode n => .rev (byteOfNat n)
  | .revChar c => .rev (byteOfNat c.toNat)

/-- The request word of a form; an ill-formed one has none. -/
def assemble (a : AsmRequest) : Option Request := if a.wellFormed then some (encode a.toInstr) else none

/-- Blanks between the parts of a line. -/
def isBlank (c : Char) : Bool := c == ' ' || c == '\t'

/-- Drop leading blanks. -/
def skipBlanks : List Char → List Char
  | [] => []
  | c :: cs => if isBlank c then skipBlanks cs else c :: cs

/-- After the operand a line holds nothing but blanks and a comment (30_encoding R52: "`;` starting a comment"). -/
def atLineEnd (cs : List Char) : Bool :=
  match skipBlanks cs with
  | [] => true
  | c :: _ => c == ';'

/-- The value of a digit character, hexadecimal ones included. -/
def digitValue (c : Char) : Option Nat :=
  if 0x30 ≤ c.toNat ∧ c.toNat ≤ 0x39 then some (c.toNat - 0x30)
  else if 0x41 ≤ c.toNat ∧ c.toNat ≤ 0x46 then some (c.toNat - 0x37)
  else if 0x61 ≤ c.toNat ∧ c.toNat ≤ 0x66 then some (c.toNat - 0x57)
  else none

/-- Read digits of a base as long as they come: the number of digits, the value, the rest. -/
def readDigits (base : Nat) : Nat → Nat → List Char → Nat × Nat × List Char
  | count, acc, [] => (count, acc, [])
  | count, acc, c :: cs =>
    match digitValue c with
    | none => (count, acc, c :: cs)
    | some d => if d < base then readDigits base (count + 1) (acc * base + d) cs else (count, acc, c :: cs)

/-- A hexadecimal number `0x…` with its number of digits. -/
def readHex : List Char → Option (Nat × Nat × List Char)
  | '0' :: 'x' :: cs => if (readDigits 16 0 0 cs).1 = 0 then none else some (readDigits 16 0 0 cs)
  | _ => none

/-- A number, "decimal or `0x` hexadecimal" (30_encoding R52). -/
def readNumber (cs : List Char) : Option (Nat × List Char) :=
  match readHex cs with
  | some (_, n, rest) => some (n, rest)
  | none => if (readDigits 10 0 0 cs).1 = 0 then none else some (readDigits 10 0 0 cs).2

/-- The elements of a bracketed list after the first, each after a comma, up to the closing bracket; `fuel` bounds the
number of elements. -/
def readListTail : Nat → List Char → Option (List Nat × List Char)
  | 0, _ => none
  | fuel + 1, cs =>
    match skipBlanks cs with
    | ']' :: rest => some ([], rest)
    | ',' :: rest =>
      match readNumber (skipBlanks rest) with
      | none => none
      | some (n, rest2) =>
        match readListTail fuel rest2 with
        | none => none
        | some (ns, rest3) => some (n :: ns, rest3)
    | _ => none

/-- A list `[n, …, n]`, possibly empty (30_encoding R52, R53). -/
def readList : List Char → Option (List Nat × List Char)
  | '[' :: cs =>
    match skipBlanks cs with
    | ']' :: rest => some ([], rest)
    | cs2 =>
      match readNumber cs2 with
      | none => none
      | some (n, rest) =>
        match readListTail (rest.length + 1) rest with
        | none => none
        | some (ns, rest2) => some (n :: ns, rest2)
  | _ => none

/-- The characters of a string up to the closing quote; a double quote or a backslash inside is escaped by a backslash
(30_encoding R52). -/
def readStringTail : List Char → Option (List Char × List Char)
  | [] => none
  | '"' :: cs => some ([], cs)
  | '\\' :: '"' :: cs => (readStringTail cs).map (fun p => ('"' :: p.1, p.2))
  | '\\' :: '\\' :: cs => (readStringTail cs).map (fun p => ('\\' :: p.1, p.2))
  | c :: cs => if c == '\\' then none else (readStringTail cs).map (fun p => (c :: p.1, p.2))

/-- A string in double quotes (30_encoding R52). -/
def readString : List Char → Option (List Char × List Char)
  | '"' :: cs => readStringTail cs
  | _ => none

/-- The mnemonic: the capital letters a line begins with. -/
def readMnemonic : List Char → List Char × List Char
  | [] => ([], [])
  | c :: cs =>
    if 0x41 ≤ c.toNat ∧ c.toNat ≤ 0x5A then (c :: (readMnemonic cs).1, (readMnemonic cs).2) else ([], c :: cs)

/-- The operand of `ENC`. -/
def readEnc (cs : List Char) : Option (AsmLine × List Char) :=
  match readHex cs, readList cs with
  | some (8, n, rest), _ => some (.request (.encWord n), rest)
  | _, some ([b0, b1, b2, b3], rest) => some (.request (.encBytes b0 b1 b2 b3), rest)
  | _, _ => none

/-- The operand of `DEC`. -/
def readDec (cs : List Char) : Option (AsmLine × List Char) :=
  match readString cs, readList cs with
  | some ([c0, c1, c2, c3, c4], rest), _ => some (.request (.decText c0 c1 c2 c3 c4), rest)
  | _, some ([c0, c1, c2, c3, c4], rest) => some (.request (.decCodes c0 c1 c2 c3 c4), rest)
  | _, _ => none

/-- The operand of `REV`; inside a character literal the character stands for itself. -/
def readRev (cs : List Char) : Option (AsmLine × List Char) :=
  match cs with
  | '\'' :: c :: '\'' :: rest => some (.request (.revChar c), rest)
  | _ =>
    match readHex cs with
    | some (2, n, rest) => some (.request (.revCode n), rest)
    | _ => none

/-- The operand of a mnemonic (30_encoding R52, R53). -/
def readOperand (mnemonic cs : List Char) : Option (AsmLine × List Char) :=
  if mnemonic = ['E', 'N', 'C'] then readEnc cs
  else if mnemonic = ['D', 'E', 'C'] then readDec cs
  else if mnemonic = ['F', 'W', 'D'] then (readNumber cs).map (fun p => (.request (.fwd p.1), p.2))
  else if mnemonic = ['R', 'E', 'V'] then readRev cs
  else if mnemonic = ['E', 'N', 'C', 'O', 'D', 'E'] then (readList cs).map (fun p => (.encodeCall p.1, p.2))
  else if mnemonic = ['D', 'E', 'C', 'O', 'D', 'E'] then (readString cs).map (fun p => (.decodeCall p.1, p.2))
  else none

/-- One line of text: "a mnemonic and its operand, one request per line, `;` starting a comment" (30_encoding R52). -/
def readLine (line : List Char) : Option AsmLine :=
  if atLineEnd line then some .blank
  else
    match readOperand (readMnemonic (skipBlanks line)).1 (skipBlanks (readMnemonic (skipBlanks line)).2) with
    | none => none
    | some (l, rest) => if atLineEnd rest then some l else none

/-- The requests of `ENCODE` (30_encoding R53): none when the length is not a multiple of 4 or a number is no byte. -/
def expandEncode (bytes : List Nat) : Option (List Instr) :=
  if bytes.length % chunkBytes ≠ 0 ∨ ¬ bytes.all (fun b => decide (b < 256)) then none else some (groups bytes)
where
  /-- One `ENC` for each group of four, in order. -/
  groups : List Nat → List Instr
    | b0 :: b1 :: b2 :: b3 :: rest => (AsmRequest.encBytes b0 b1 b2 b3).toInstr :: groups rest
    | _ => []

/-- The requests of `DECODE` when every response is OK (30_encoding R53); the sequencer stops after the first that is
not. None when the length is not a multiple of 5 or a character is no code unit. -/
def expandDecode (text : List Char) : Option (List Instr) :=
  if text.length % chunkChars ≠ 0 ∨ ¬ text.all (fun c => decide (c.toNat < 256)) then none else some (groups text)
where
  /-- One `DEC` for each group of five, in order. -/
  groups : List Char → List Instr
    | c0 :: c1 :: c2 :: c3 :: c4 :: rest => (AsmRequest.decText c0 c1 c2 c3 c4).toInstr :: groups rest
    | _ => []

/-- A digit 0..15 as a hexadecimal character. -/
def hexChar (n : Nat) : Char := Char.ofNat (if n < 10 then 0x30 + n else 0x37 + n)

/-- `k` hexadecimal digits of a number. -/
def hexDigits : Nat → Nat → List Char
  | 0, _ => []
  | k + 1, n => hexDigits k (n / 16) ++ [hexChar (n % 16)]

/-- How a response is written (30_encoding R52: "`OK <result>` or `<ErrorKind>(info)`"). -/
def writeAnswer : Answer → List Char
  | .ok result => ['O', 'K', ' ', '0', 'x'] ++ hexDigits 10 result.toNat
  | .error (.invalidCharacter pos val) =>
    ['I', 'n', 'v', 'a', 'l', 'i', 'd', 'C', 'h', 'a', 'r', 'a', 'c', 't', 'e', 'r'] ++ ['(', 'p', 'o', 's', ' '] ++
    [hexChar pos.val] ++ [',', ' ', 'v', 'a', 'l', 'u', 'e', ' ', '0', 'x'] ++ hexDigits 2 val.toNat ++ [')']
  | .error .numericOverflow => ['N', 'u', 'm', 'e', 'r', 'i', 'c', 'O', 'v', 'e', 'r', 'f', 'l', 'o', 'w']
  | .error .digitRange => ['D', 'i', 'g', 'i', 't', 'R', 'a', 'n', 'g', 'e']
  | .error .illegalRequest => ['I', 'l', 'l', 'e', 'g', 'a', 'l', 'R', 'e', 'q', 'u', 'e', 's', 't']

end Sys2Proof.Machine
end

