-- ==== Sys2Proof/Machine/Calls.lean ====
section
/-! DEFINITION. The buffer-level calls `encode` and `decode` as functions over sequences (43_buffer_calls R91 to R98). -/

namespace Sys2Proof.Machine

/-- The failures of a call (43_buffer_calls R92, R95). -/
inductive CallError where
  /-- The length is not a multiple of the chunk size; carries nothing (R92). -/
  | invalidLength
  /-- The 0-based index in the whole text and the code unit of the offending character (R95 c). -/
  | invalidCharacter (pos : Nat) (val : Byte)
  /-- The 0-based index of the overflowing group (R95 c); strict mode only. -/
  | numericOverflow (group : Nat)
  deriving DecidableEq, Repr

/-- The kind of a call's error (60_exceptions R100). -/
def CallError.status : CallError → Status
  | .invalidLength => .invalidLength
  | .invalidCharacter _ _ => .invalidCharacter
  | .numericOverflow _ => .numericOverflow

/-- The error of group `g` as the error of the call (43_buffer_calls R94, R95 c). -/
def callError (g : Nat) : DecError → CallError
  | .invalidCharacter i c => .invalidCharacter (5 * g + i.val) c
  | .numericOverflow => .numericOverflow g

/-- The groups of a Byte Buffer, in original order, encoded and appended (43_buffer_calls R93). Bytes after the last whole
group would be left out; `encodeCall` never gets here with any. -/
def encodeGroups (cfg : Config) : List Byte → List Byte
  | b0 :: b1 :: b2 :: b3 :: rest => (encGroup cfg (wordOfBytes b0 b1 b2 b3)).toList ++ encodeGroups cfg rest
  | _ => []

/-- The call `encode` (43_buffer_calls R93): the length test first, then every group. -/
def encodeCall (cfg : Config) (bytes : List Byte) : Except CallError (List Byte) :=
  if bytes.length % chunkBytes ≠ 0 then .error .invalidLength else .ok (encodeGroups cfg bytes)

/-- The groups of a text from group number `g` on, in original order, decoded and appended; the first failing group
decides the error and discards the output (43_buffer_calls R94, R95). -/
def decodeGroups (cfg : Config) : Nat → List Byte → Except CallError (List Byte)
  | g, c0 :: c1 :: c2 :: c3 :: c4 :: rest =>
    match decGroup cfg ⟨c0, c1, c2, c3, c4⟩ with
    | .error e => .error (callError g e)
    | .ok w =>
      match decodeGroups cfg (g + 1) rest with
      | .error e => .error e
      | .ok out => .ok (bytesOfWord w ++ out)
  | _, _ => .ok []

/-- The call `decode` (43_buffer_calls R94): the length test first, then the groups. -/
def decodeCall (cfg : Config) (text : List Byte) : Except CallError (List Byte) :=
  if text.length % chunkChars ≠ 0 then .error .invalidLength else decodeGroups cfg 0 text

end Sys2Proof.Machine
end

