-- ==== Sys2Proof/Machine/Sequencer.lean ====
section
/-! DEFINITION. The host-side sequencer: the pseudo-operations ENCODE and DECODE as runs of requests through the
machine's own step (30_encoding R53, 43_buffer_calls R91). It reads responses, never the parameters. -/

namespace Sys2Proof.Machine

/-- Run `k` steps; none when a step does not answer a next state. -/
def runSteps : Nat → State → Option State
  | 0, s => some s
  | k + 1, s =>
    match step s with
    | .next t => runSteps k t
    | .fault _ => none
    | .refused _ => none

/-- Present one request and let the block run until it has answered it: the requests presented before it are answered
first (log 6). The answer is the last response. -/
def transact (r : Request) (s : State) : Option (State × Response) :=
  match runSteps (s.pending.length + 1) (present r s) with
  | none => none
  | some t =>
    match t.responses.getLast? with
    | none => none
    | some w => some (t, w)

/-- Issue the request of one operation and read its response. None when the response is no response word. -/
def exchange (i : Instr) (s : State) : Option (State × Answer) :=
  match transact (encode i) s with
  | none => none
  | some (t, w) => (parseResponse w).map (fun a => (t, a))

/-- One `ENC` request for each whole group, in order; the results appended (30_encoding R53). None when a response is
none that `ENC` gives. -/
def runEncodeGroups : List Byte → State → Option (State × List Byte)
  | b0 :: b1 :: b2 :: b3 :: rest, s =>
    match exchange (.enc (wordOfBytes b0 b1 b2 b3)) s with
    | some (t, .ok result) =>
      match runEncodeGroups rest t with
      | none => none
      | some (u, out) => some (u, (unpackChars result).toList ++ out)
    | _ => none
  | _, s => some (s, [])

/-- `ENCODE` (30_encoding R53): no request at all when the length is not a multiple of 4. -/
def runEncode (bytes : List Byte) (s : State) : Option (State × Except CallError (List Byte)) :=
  if bytes.length % chunkBytes ≠ 0 then some (s, .error .invalidLength)
  else
    match runEncodeGroups bytes s with
    | none => none
    | some (t, out) => some (t, .ok out)

/-- `DEC` requests of the groups from group number `g` on, in order, stopping after the first response that is not OK
(30_encoding R53; 43_buffer_calls R95). None when a response is none that `DEC` gives. -/
def runDecodeGroups : Nat → List Byte → State → Option (State × Except CallError (List Byte))
  | g, c0 :: c1 :: c2 :: c3 :: c4 :: rest, s =>
    match exchange (.dec c0 c1 c2 c3 c4) s with
    | some (t, .ok result) =>
      match runDecodeGroups (g + 1) rest t with
      | none => none
      | some (u, .error e) => some (u, .error e)
      | some (u, .ok out) => some (u, .ok (bytesOfWord (unpackWord result) ++ out))
    | some (t, .error (.invalidCharacter i c)) => some (t, .error (callError g (.invalidCharacter i c)))
    | some (t, .error .numericOverflow) => some (t, .error (callError g .numericOverflow))
    | _ => none
  | _, _, s => some (s, .ok [])

/-- `DECODE` (30_encoding R53): no request at all when the length is not a multiple of 5. -/
def runDecode (text : List Byte) (s : State) : Option (State × Except CallError (List Byte)) :=
  if text.length % chunkChars ≠ 0 then some (s, .error .invalidLength) else runDecodeGroups 0 text s

end Sys2Proof.Machine
end

