-- ==== Sys2Proof/Safety.lean ====
section
/-! DEFINITION. What a safe run is: every response is the one its request gets alone, has the shape the spec gives a
response word, and agrees with the overflow policy. -/

namespace Sys2Proof.Machine

/-- The state that differs from `s` in one more response, the 54-bit number `n` (30_encoding R45). -/
def State.withResponse (s : State) (n : Nat) : State := { s with responses := s.responses ++ [BitVec.ofNat 54 n] }

/-- The state that differs from `s` in that its next request has been taken and answered by the 54-bit number `n`. -/
def State.afterAnswer (s : State) (n : Nat) : State :=
  { s with pending := s.pending.tail, answered := s.answered ++ s.pending.take 1,
           responses := s.responses ++ [BitVec.ofNat 54 n] }

/-- A text all of whose groups are canonical: five alphabet characters whose value is below 2^32 (00_scope R9). -/
def CanonicalText (cfg : Config) (text : List Byte) : Prop :=
  ∃ gs : List (Chunk Digit), text = gs.flatMap (fun g => (g.map cfg.digitToChar).toList) ∧ ∀ g ∈ gs, g.value < 2 ^ 32

/-- A block to which exactly one request was ever presented. -/
def aloneState (cfg : Config) (r : Request) : State := ⟨cfg, [r], [], []⟩

/-- `w` is the response the request `r` gets "when issued alone" (20_memory R30). -/
def AnswersAlone (cfg : Config) (r : Request) (w : Response) : Prop :=
  ∃ t, step (aloneState cfg r) = .next t ∧ t.responses = [w]

/-- The log pairs every request taken with exactly one response, and that response is the one the request gets alone
(20_memory R30; 70_reset R125, R127). -/
def LogCoherent (s : State) : Prop :=
  List.Forall₂ (AnswersAlone s.config) s.answered s.responses

/-- The shape of a response word: status 0 or 2 to 5; an error has a zero result; the error fields are zero but for
InvalidCharacter, whose position is 0..4 (30_encoding R45, R47, R49). -/
structure ResponseShape (w : Response) : Prop where
  status : rspStatus w = 0 ∨ rspStatus w = 2 ∨ rspStatus w = 3 ∨ rspStatus w = 4 ∨ rspStatus w = 5
  result : rspStatus w ≠ 0 → rspResult w = 0
  fields : rspStatus w ≠ 2 → rspErrPos w = 0 ∧ rspErrVal w = 0
  position : rspStatus w = 2 → (rspErrPos w).toNat ≤ 4

/-- Every response given so far has the shape of a response word, and no group was rejected for overflow unless the block
is strict (60_exceptions R103). -/
def LogShaped (s : State) : Prop :=
  ∀ w ∈ s.responses, ResponseShape w ∧ (s.config.strictOverflow = false → rspStatus w ≠ 3)

/-- A safe state. -/
def Safe (s : State) : Prop := LogCoherent s ∧ LogShaped s

end Sys2Proof.Machine
end

