-- ==== Sys2Proof/Certificates/Slice0/Obligations.lean ====
section
/-! DEFINITION. The statements for the provers. A response is written as the number of its 54-bit word (30_encoding R45:
status at 2^51, err_pos at 2^48, err_val at 2^40, result below), so that no statement rests on the model's own packing. -/

open Sys2Proof Sys2Proof.Machine

/-! ## Reset, fetching and decoding -/

/-- What reset leaves: the default parameters and nothing presented or answered. All of it rests on choices. The values
stand in 00_scope R6 and are the spec's own decisions: the table, ascending over the set of 40_alphabet_roms R60, is D4 to
D6 (log 2), `STRICT_OVERFLOW` = true is D9 (log 3), `ACC_BITS` = 33 is D10 (log 4), `REV_WORD_BITS` = 9 and
`FWD_ADDR_BITS` = 7 are D7 and D8 (log 5). The empty lists are the model's own choice (logs 6 and 7). -/
def Obligations.ResetHoldsDefaultParameters : Prop :=
  State.reset.pending = [] ∧ State.reset.answered = [] ∧ State.reset.responses = [] ∧
  State.reset.config.strictOverflow = true ∧ State.reset.config.accBits = 33 ∧
  State.reset.config.revWordBits = 9 ∧ State.reset.config.fwdAddrBits = 7 ∧
  (∀ d e : Digit, d < e → (State.reset.config.digitToChar d).toNat < (State.reset.config.digitToChar e).toNat) ∧
  ∀ c : Byte, isSymbol c = true ↔ ∃ d : Digit, State.reset.config.digitToChar d = c

/-- A step takes the next request and, when it decodes to an operation, is `exec` of that operation at the state with the
request taken (30_encoding R51). Taking a request means moving it from `pending` to the log `answered` (logs 6, 7). -/
def Obligations.StepRunsDecodedRequest : Prop :=
  ∀ (s : State) (r : Request) (rest : List Request) (i : Instr),
    s.pending = r :: rest → decode r = .ok i →
    step s = exec i { s with pending := rest, answered := s.answered ++ [r] }

/-- The word of a table row, once presented first, is what the next step runs (logs 9, 10). -/
def Obligations.TableWordRunsNext : Prop :=
  ∀ (s : State) (nbits w : Nat) (i : Instr), decodeTableWord nbits w = some i →
    step (s.withFetchWord nbits w) = exec i { s with answered := s.answered ++ [BitVec.ofNat 42 (w % 2 ^ nbits)] }

/-- With no request presented a step changes nothing: the model's own choice (log 8); 60_exceptions R106 says that nothing
happens in the block except in answer to a request. -/
def Obligations.IdleStepChangesNothing : Prop :=
  ∀ s : State, s.pending = [] → step s = .next s

/-- 30_encoding R48: a request with a nonzero reserved operand bit (`ENC` bits 39:32, `FWD` bits 39:7, `REV` bits 39:8)
gets status 5 and zeros in every other field, whatever the tables hold; `DEC` has no reserved bits. -/
def Obligations.ReservedBitsAnswerIllegalRequest : Prop :=
  (∀ (s : State) (r : Request) (rest : List Request), s.pending = r :: rest →
    (r.toNat / 2 ^ 40 = 0 ∧ r.toNat % 2 ^ 40 / 2 ^ 32 ≠ 0) ∨ (r.toNat / 2 ^ 40 = 2 ∧ r.toNat % 2 ^ 40 / 2 ^ 7 ≠ 0) ∨
      (r.toNat / 2 ^ 40 = 3 ∧ r.toNat % 2 ^ 40 / 2 ^ 8 ≠ 0) →
    step s = .next { s with pending := rest, answered := s.answered ++ [r],
                            responses := s.responses ++ [BitVec.ofNat 54 (5 * 2 ^ 51)] }) ∧
  ∀ r : Request, r.toNat / 2 ^ 40 = 1 → ∃ c0 c1 c2 c3 c4 : Byte, decode r = .ok (.dec c0 c1 c2 c3 c4)

/-- A few words written out from the encodings of 30_encoding R54 and its worked encodings. -/
def Obligations.SpecWordsDecode : Prop :=
  decode 0x00000000001#42 = .ok (.enc 1) ∧ decode 0x000FFFFFFFF#42 = .ok (.enc 0xFFFFFFFF) ∧
  decode 0x12C21252321#42 = .ok (.dec 0x2C 0x21 0x25 0x23 0x21) ∧
  decode 0x20000000055#42 = .ok (.fwd 85) ∧ decode 0x3000000007A#42 = .ok (.rev 0x7A) ∧
  decode 0x00100000000#42 = .error .encReserved ∧ decode 0x20000000080#42 = .error .fwdReserved ∧
  decode 0x30000000100#42 = .error .revReserved

/-- The word of every operation decodes to it, every operand at every value (30_encoding R43, R44). -/
def Obligations.DecodeOfEncode : Prop :=
  ∀ i : Instr, decode (encode i) = .ok i

/-- A request word that decodes to an operation is the word of that operation: each word has one meaning. -/
def Obligations.EncodeOfDecode : Prop :=
  ∀ (r : Request) (i : Instr), decode r = .ok i → encode i = r

/-- 30_encoding R54: the rows are disjoint, a word decodes to an operation of the row it selects, and a word that selects
no row is an illegal request. -/
def Obligations.TableRowsDecideDecoding : Prop :=
  (∀ (r : Request) (row row' : TableRow), row ∈ opcodeTable → row' ∈ opcodeTable →
    row.selects r = true → row'.selects r = true → row = row') ∧
  (∀ (r : Request) (row : TableRow), row ∈ opcodeTable → row.selects r = true →
    ∃ i : Instr, decode r = .ok i ∧ mnemonicOf i = row.mnemonic) ∧
  ∀ r : Request, (∀ row ∈ opcodeTable, row.selects r = false) → ∃ e : Reject, decode r = .error e

/-- The checks of WellFormed accept exactly the words the decoder accepts, and every operation is well formed
(30_encoding R48, R49). -/
def Obligations.WellFormedWordsDecode : Prop :=
  (∀ r : Request, r.wellFormed = true ↔ ∃ i : Instr, decode r = .ok i) ∧ ∀ i : Instr, i.wellFormed = true

/-! ## The four operations -/

/-- `ENC W` answers OK with the characters of the five digits of W, for every W in every state (41_encoder R71, R72,
R74). -/
def Obligations.EncAnswersDigitCharacters : Prop :=
  ∀ (s : State) (w : BitVec 32), ∃ d0 d1 d2 d3 d4 : Digit,
    d0.val = w.toNat / 52200625 ∧ d1.val = w.toNat / 614125 % 85 ∧ d2.val = w.toNat / 7225 % 85 ∧
    d3.val = w.toNat / 85 % 85 ∧ d4.val = w.toNat % 85 ∧
    exec (.enc w) s = .next (s.withResponse
      ((s.config.digitToChar d0).toNat * 2 ^ 32 + (s.config.digitToChar d1).toNat * 2 ^ 24 +
       (s.config.digitToChar d2).toNat * 2 ^ 16 + (s.config.digitToChar d3).toNat * 2 ^ 8 +
       (s.config.digitToChar d4).toNat))

/-- `DEC` of five alphabet characters whose value is below 2^32 answers OK with that value, in both overflow modes
(42_decoder R81 to R83). -/
def Obligations.DecAnswersGroupValue : Prop :=
  ∀ (s : State) (g : Chunk Digit), s.config.Legal → g.value < 2 ^ 32 →
    exec (.dec (s.config.digitToChar g.c0) (s.config.digitToChar g.c1) (s.config.digitToChar g.c2)
      (s.config.digitToChar g.c3) (s.config.digitToChar g.c4)) s = .next (s.withResponse g.value)

/-- `DEC` of five alphabet characters whose value is 2^32 or more: NumericOverflow when strict, the value minus 2^32
otherwise (42_decoder R82). -/
def Obligations.DecAnswersOverflowByMode : Prop :=
  ∀ (s : State) (g : Chunk Digit), s.config.Legal → 2 ^ 32 ≤ g.value →
    (s.config.strictOverflow = true →
      exec (.dec (s.config.digitToChar g.c0) (s.config.digitToChar g.c1) (s.config.digitToChar g.c2)
        (s.config.digitToChar g.c3) (s.config.digitToChar g.c4)) s = .next (s.withResponse (3 * 2 ^ 51))) ∧
    (s.config.strictOverflow = false →
      exec (.dec (s.config.digitToChar g.c0) (s.config.digitToChar g.c1) (s.config.digitToChar g.c2)
        (s.config.digitToChar g.c3) (s.config.digitToChar g.c4)) s = .next (s.withResponse (g.value - 2 ^ 32)))

/-- `DEC` with an invalid character answers InvalidCharacter with the smallest position that holds one and its code unit,
whatever stands after it and in both overflow modes (42_decoder R84, R85). -/
def Obligations.DecAnswersFirstInvalidCharacter : Prop :=
  ∀ (s : State) (g : Chunk Byte) (i : Nat) (c : Byte), g.toList[i]? = some c →
    (∀ d : Digit, s.config.digitToChar d ≠ c) →
    (∀ (j : Nat) (x : Byte), j < i → g.toList[j]? = some x → ∃ d : Digit, s.config.digitToChar d = x) →
    exec (.dec g.c0 g.c1 g.c2 g.c3 g.c4) s = .next (s.withResponse (2 * 2 ^ 51 + i * 2 ^ 48 + c.toNat * 2 ^ 40))

/-- 60_exceptions R103: `DEC` answers NumericOverflow exactly when all five characters are valid, their value is 2^32 or
more, and the block is strict. -/
def Obligations.DecOverflowsExactlyWhenStrict : Prop :=
  ∀ (s : State) (c : Chunk Byte), s.config.Legal →
    (exec (.dec c.c0 c.c1 c.c2 c.c3 c.c4) s = .next (s.withResponse (3 * 2 ^ 51)) ↔
      s.config.strictOverflow = true ∧ ∃ g : Chunk Digit, g.map s.config.digitToChar = c ∧ 2 ^ 32 ≤ g.value)

/-- `FWD d` answers OK with ALPHABET(d) for 0..84 and DigitRange for 85..127 (40_alphabet_roms R66), whatever
`FWD_ADDR_BITS` is, given that it has the 7 bits the 85 entries need (00_scope R6; log 5). -/
def Obligations.FwdAnswersCharacterOrDigitRange : Prop :=
  ∀ (s : State) (d : BitVec 7),
    (∀ h : d.toNat < 85, 7 ≤ s.config.fwdAddrBits → exec (.fwd d) s = .next (s.withResponse (s.config.digitToChar ⟨d.toNat, h⟩).toNat)) ∧
    (85 ≤ d.toNat → exec (.fwd d) s = .next (s.withResponse (4 * 2 ^ 51)))

/-- `REV c` answers OK with the digit of an alphabet character and OK with 256 for any other code unit
(40_alphabet_roms R67), whatever `REV_WORD_BITS` is, given that it has the 9 bits the marker needs (00_scope R6; log 5). -/
def Obligations.RevAnswersTableWord : Prop :=
  (∀ (s : State) (d : Digit), s.config.Legal →
    exec (.rev (s.config.digitToChar d)) s = .next (s.withResponse d.val)) ∧
  ∀ (s : State) (c : Byte), 9 ≤ s.config.revWordBits → (∀ d : Digit, s.config.digitToChar d ≠ c) →
    exec (.rev c) s = .next (s.withResponse 256)

/-- 40_alphabet_roms R66 from the request word on: the reserved bits first, then the digit's range, then the character;
nothing but the logs changes. The character is read with any `FWD_ADDR_BITS` of 7 or more (log 5). -/
def Obligations.FwdRequestAnswered : Prop :=
  ∀ (s : State) (rest : List Request) (n : Nat), n < 2 ^ 40 →
    s.pending = BitVec.ofNat 42 (2 * 2 ^ 40 + n) :: rest →
    (∀ h : n < 85, 7 ≤ s.config.fwdAddrBits → step s = .next (s.afterAnswer (s.config.digitToChar ⟨n, h⟩).toNat)) ∧
    (85 ≤ n → n ≤ 127 → step s = .next (s.afterAnswer (4 * 2 ^ 51))) ∧
    (128 ≤ n → step s = .next (s.afterAnswer (5 * 2 ^ 51)))

/-- 40_alphabet_roms R67 from the request word on: the reserved bits first, then the reverse-table word, with status OK
for an invalid character too, for every legal `REV_WORD_BITS` (log 5). -/
def Obligations.RevRequestAnswered : Prop :=
  ∀ (s : State) (rest : List Request) (n : Nat), s.config.Legal → n < 2 ^ 40 →
    s.pending = BitVec.ofNat 42 (3 * 2 ^ 40 + n) :: rest →
    (∀ d : Digit, n = (s.config.digitToChar d).toNat → step s = .next (s.afterAnswer d.val)) ∧
    (n < 256 → (∀ d : Digit, n ≠ (s.config.digitToChar d).toNat) → step s = .next (s.afterAnswer 256)) ∧
    (256 ≤ n → step s = .next (s.afterAnswer (5 * 2 ^ 51)))

/-- 00_scope R6: a ROM with a wider address or a wider word is no other block to a host. Every operation gives the same
response with every `FWD_ADDR_BITS` of 7 or more and every `REV_WORD_BITS` of 9 or more, and forward addresses from 85 on
hold nothing in any address space. The formats carry 7 and 9 bits; what a wider ROM does is the model's reading (log 5). -/
def Obligations.WiderRomsAnswerTheSame : Prop :=
  (∀ (cfg : Config) (a : cfg.FwdAddr), 85 ≤ a.toNat → fwdRom cfg a = .error .digitRange) ∧
  ∀ (i : Instr) (cfg : Config) (fwdAddrBits revWordBits : Nat),
    7 ≤ cfg.fwdAddrBits → 9 ≤ cfg.revWordBits → 7 ≤ fwdAddrBits → 9 ≤ revWordBits →
    ∃ w : Response, ∀ s : State,
      (s.config = cfg → exec i s = .next { s with responses := s.responses ++ [w] }) ∧
      (s.config = { cfg with fwdAddrBits := fwdAddrBits, revWordBits := revWordBits } →
        exec i s = .next { s with responses := s.responses ++ [w] })

/-- The frame of all four operations, and 10_state R10: an operation gives exactly one response, which is a function of the
operation and the parameters alone, and changes nothing else: no parameter, no table, no other request, no earlier
response. -/
def Obligations.ExecGivesOneResponseFromParameters : Prop :=
  ∀ (i : Instr) (cfg : Config), ∃ w : Response, ∀ s : State, s.config = cfg →
    exec i s = .next { s with responses := s.responses ++ [w] }

/-! ## The machine as a whole -/

/-- Every request presented is answered, with exactly one response, and the step that does so cannot fail, whatever the
word (70_reset R125; 30_encoding R50). -/
def Obligations.EveryRequestAnsweredOnce : Prop :=
  ∀ (s : State) (r : Request) (rest : List Request), s.pending = r :: rest →
    ∃ w : Response, step s = .next { s with pending := rest, answered := s.answered ++ [r],
                                            responses := s.responses ++ [w] }

/-- No step writes the tables or a parameter (10_state R14, R15; 40_alphabet_roms R69). -/
def Obligations.ParametersNeverChange : Prop :=
  ∀ (k : Nat) (s t : State), runSteps k s = some t → t.config = s.config

/-- Whatever is presented, in whatever order, running until nothing is pending answers each request as it would be
answered alone (20_memory R30, 70_reset R127), in the order in which the model takes them (log 6). -/
def Obligations.RunAnswersEachRequestAsAlone : Prop :=
  ∀ s : State, ∃ (t : State) (ws : List Response), runSteps s.pending.length s = some t ∧
    t.config = s.config ∧ t.pending = [] ∧ t.answered = s.answered ++ s.pending ∧
    t.responses = s.responses ++ ws ∧ List.Forall₂ (AnswersAlone s.config) s.pending ws

/-- Two orders of the same requests give the same pairs of request and response (70_reset R127). -/
def Obligations.RequestOrderUnobservable : Prop :=
  ∀ (cfg : Config) (ps qs : List Request) (t u : State), ps.Perm qs →
    runSteps ps.length ⟨cfg, ps, [], []⟩ = some t → runSteps qs.length ⟨cfg, qs, [], []⟩ = some u →
    (t.answered.zip t.responses).Perm (u.answered.zip u.responses)

/-- Every step keeps the log coherent: each request taken is paired with the response it gets alone (20_memory R30). -/
def Obligations.StepKeepsLogCoherent : Prop :=
  ∀ s t : State, LogCoherent s → step s = .next t → LogCoherent t

/-- Every step keeps the log shaped: every response word has one of the codes 0 and 2 to 5, a zero result beside an error,
zero error fields outside InvalidCharacter, and no NumericOverflow in wrap mode (30_encoding R45, R47, R49;
60_exceptions R103). -/
def Obligations.StepKeepsLogShaped : Prop :=
  ∀ s t : State, LogShaped s → step s = .next t → LogShaped t

/-- The state after reset is safe: its logs are coherent and shaped. It rests on the logs being empty there, which is the
model's own choice (log 7); the spec names no log. -/
def Obligations.ResetIsSafe : Prop := Safe State.reset

/-- Reading a response word inverts writing an answer, both ways (30_encoding R45, R47, R49). -/
def Obligations.ResponseWordsRoundTrip : Prop :=
  (∀ a : Answer, parseResponse (packAnswer a) = some a) ∧
  ∀ (w : Response) (a : Answer), parseResponse w = some a → packAnswer a = w

/-! ## The tables -/

/-- 40_alphabet_roms R62: addresses 0..84 hold ALPHABET, 85..127 are DigitRange, and the five reads of the encoder are
always of the first kind; for every `FWD_ADDR_BITS` that gives the 85 entries the 7 bits they need (00_scope R6). -/
def Obligations.ForwardRomRead : Prop :=
  ∀ cfg : Config, 7 ≤ cfg.fwdAddrBits →
    (∀ d : Digit, fwdRom cfg (BitVec.ofNat cfg.fwdAddrBits d.val) = .ok (cfg.digitToChar d)) ∧
    (∀ a : cfg.FwdAddr, 85 ≤ a.toNat → a.toNat ≤ 127 → fwdRom cfg a = .error .digitRange) ∧
    ∀ w : GroupWord, (encDigits w).toList.map (fun d => fwdRom cfg (BitVec.ofNat cfg.fwdAddrBits d.val)) =
      (encGroup cfg w).toList.map Except.ok

/-- 40_alphabet_roms R64: a reverse entry is the digit of an alphabet character and 256 for any other; it is 256 exactly
when bit 8 is set; otherwise the word is the digit itself, at most 84. For every legal `REV_WORD_BITS` (00_scope R6). -/
def Obligations.ReverseRomRead : Prop :=
  ∀ (cfg : Config) (c : Byte), cfg.Legal →
    (∀ d : Digit, cfg.digitToChar d = c → revRom cfg c = BitVec.ofNat cfg.revWordBits d.val) ∧
    ((∀ d : Digit, cfg.digitToChar d ≠ c) → revRom cfg c = BitVec.ofNat cfg.revWordBits 256) ∧
    (revRom cfg c = BitVec.ofNat cfg.revWordBits 256 ↔ (revRom cfg c).getLsbD 8 = true) ∧
    ((revRom cfg c).getLsbD 8 = false → (revRom cfg c).toNat ≤ 84 ∧ (revRom cfg c).toNat = ((charToDigit cfg c).map Fin.val).getD 256)

/-- 40_alphabet_roms R65: the two tables are inverse to each other, with its consequences, for every legal alphabet, and
the default one is legal. -/
def Obligations.TablesAreInverse : Prop :=
  defaultConfig.Legal ∧ ∀ cfg : Config, cfg.Legal →
    (∀ c : Byte, isSymbol c = true → ∃ d : Digit, charToDigit cfg c = some d ∧ cfg.digitToChar d = c) ∧
    (∀ d : Digit, charToDigit cfg (cfg.digitToChar d) = some d) ∧
    Function.Injective cfg.digitToChar ∧
    (∀ c : Byte, revRom cfg c ≠ BitVec.ofNat cfg.revWordBits 256 ↔ isSymbol c = true) ∧
    Set.BijOn (fun c : Byte => (revRom cfg c).toNat) {c : Byte | isSymbol c = true} (Set.Iio 85) ∧
    ∀ d : Digit, (cfg.digitToChar d).setWidth cfg.revWordBits ≠ BitVec.ofNat cfg.revWordBits 256

/-- The default tables of 40_alphabet_roms R61 and R63: the runs of the closed form, and which code units are invalid.
They rest on the spec's decisions D4, D5, D6 (log 2). -/
def Obligations.DefaultTables : Prop :=
  (∀ d : Digit, 12 ≤ d.val → d.val ≤ 21 → (defaultConfig.digitToChar d).toNat = 0x30 + (d.val - 12)) ∧
  (∀ d : Digit, 28 ≤ d.val → d.val ≤ 53 → (defaultConfig.digitToChar d).toNat = 0x41 + (d.val - 28)) ∧
  (∀ d : Digit, 59 ≤ d.val → (defaultConfig.digitToChar d).toNat = 0x61 + (d.val - 59)) ∧
  ∀ c : Byte, charToDigit defaultConfig c = none ↔
    c.toNat ≤ 0x20 ∨ c.toNat ∈ [0x22, 0x26, 0x2C, 0x3B, 0x5C] ∨ 0x7B ≤ c.toNat

/-! ## The encoder and the decoder -/

/-- 41_encoder R75: the digits spell W exactly and are the only five that do; the two other ways to compute them agree. -/
def Obligations.EncDigitsSpellValue : Prop :=
  ∀ w : GroupWord,
    (encDigits w).value = w.toNat ∧
    (∀ (d0 : Nat) (d1 d2 d3 d4 : Digit),
      w.toNat = d0 * 85 ^ 4 + d1.val * 85 ^ 3 + d2.val * 85 ^ 2 + d3.val * 85 + d4.val →
      d0 = (encDigits w).c0.val ∧ d1 = (encDigits w).c1 ∧ d2 = (encDigits w).c2 ∧ d3 = (encDigits w).c3 ∧
        d4 = (encDigits w).c4) ∧
    ((encDigits w).c4.val = w.toNat % 85 ∧ (encDigits w).c3.val = w.toNat / 85 % 85 ∧
      (encDigits w).c2.val = w.toNat / 85 / 85 % 85 ∧ (encDigits w).c1.val = w.toNat / 85 / 85 / 85 % 85 ∧
      (encDigits w).c0.val = w.toNat / 85 / 85 / 85 / 85) ∧
    ((encDigits w).c0.val = w.toNat / 85 ^ 4 ∧ (encDigits w).c1.val = w.toNat % 85 ^ 4 / 85 ^ 3 ∧
      (encDigits w).c2.val = w.toNat % 85 ^ 4 % 85 ^ 3 / 85 ^ 2 ∧
      (encDigits w).c3.val = w.toNat % 85 ^ 4 % 85 ^ 3 % 85 ^ 2 / 85 ∧
      (encDigits w).c4.val = w.toNat % 85 ^ 4 % 85 ^ 3 % 85 ^ 2 % 85)

/-- 41_encoder R73: the leading digit is at most 82 and reaches 82, so the characters of digits 83 and 84 never lead an
output (`y` and `z` with the default table). -/
def Obligations.LeadingDigitAtMost82 : Prop :=
  (∀ w : GroupWord, w.toNat / 52200625 ≤ 82 ∧ (encDigits w).c0.val = w.toNat / 52200625) ∧
  (encDigits 0xFFFFFFFF).c0.val = 82 ∧
  (∀ (cfg : Config) (w : GroupWord), cfg.Legal →
    (encGroup cfg w).c0 ≠ cfg.digitToChar 83 ∧ (encGroup cfg w).c0 ≠ cfg.digitToChar 84) ∧
  ∀ w : GroupWord, (encGroup defaultConfig w).c0 ≠ 0x79 ∧ (encGroup defaultConfig w).c0 ≠ 0x7A

/-- 41_encoder R76 (a), (b), (c): outputs hold alphabet characters only, different values give different groups, and the
outputs are exactly the canonical groups. -/
def Obligations.EncoderImageIsCanonicalGroups : Prop :=
  ∀ cfg : Config, cfg.Legal →
    (∀ (w : GroupWord) (c : Byte), c ∈ (encGroup cfg w).toList → isSymbol c = true) ∧
    Function.Injective (encGroup cfg) ∧
    ∀ g : Chunk Digit, (∃ w : GroupWord, encGroup cfg w = g.map cfg.digitToChar) ↔ g.value < 2 ^ 32

/-- 41_encoder R76 (d): with the default table, values are in order exactly when their groups are in byte-wise
lexicographic order, which is the order of the packed 40-bit fields. Rests on the spec's decision D4 (log 2). -/
def Obligations.DefaultEncoderKeepsOrder : Prop :=
  ∀ v w : GroupWord, v.toNat < w.toNat ↔
    (packChars (encGroup defaultConfig v)).toNat < (packChars (encGroup defaultConfig w)).toNat

/-- 42_decoder R86: after k valid characters the accumulator is at most 85^k − 1, the overflow test is bit 32, and every
width of 33 bits or more gives the same answer. -/
def Obligations.AccumulatorLosesNothing : Prop :=
  (∀ (cfg : Config) (cs : List (Fin 5 × Byte)) (acc : Nat), 33 ≤ cfg.accBits → cs.length ≤ 5 →
    decFold cfg cs 0 = .ok acc → acc < 85 ^ cs.length ∧ (2 ^ 32 ≤ acc ↔ acc.testBit 32 = true)) ∧
  ∀ (cfg : Config) (b : Nat) (g : Chunk Byte), 33 ≤ cfg.accBits → 33 ≤ b →
    decGroup { cfg with accBits := b } g = decGroup cfg g

/-- 42_decoder R87: in wrap mode, reducing once at the end is a 32-bit accumulator that wraps at every step, and a wrapped
result is the value minus 2^32, at most 142085828. -/
def Obligations.WrapModeIsStepwiseWrap : Prop :=
  ∀ (cfg : Config) (g : Chunk Digit), cfg.Legal → cfg.strictOverflow = false →
    decGroup cfg (g.map cfg.digitToChar) =
      .ok ((((BitVec.ofNat 32 g.c0.val * 85 + BitVec.ofNat 32 g.c1.val) * 85 + BitVec.ofNat 32 g.c2.val) * 85 +
        BitVec.ofNat 32 g.c3.val) * 85 + BitVec.ofNat 32 g.c4.val) ∧
    (2 ^ 32 ≤ g.value → decGroup cfg (g.map cfg.digitToChar) = .ok (BitVec.ofNat 32 (g.value - 2 ^ 32)) ∧
      g.value - 2 ^ 32 ≤ 142085828)

/-- 42_decoder R88: (a) decoding an encoded value gives it back in both modes; (b) encoding a decoded canonical group gives
it back; (c) for a group of value 2^32 or more it does not: strict mode fails, wrap mode gives the canonical group of the
value minus 2^32, a different one. -/
def Obligations.GroupRoundTrips : Prop :=
  ∀ cfg : Config, cfg.Legal →
    (∀ w : GroupWord, decGroup cfg (encGroup cfg w) = .ok w) ∧
    (∀ g : Chunk Digit, g.value < 2 ^ 32 → ∃ w : GroupWord,
      decGroup cfg (g.map cfg.digitToChar) = .ok w ∧ encGroup cfg w = g.map cfg.digitToChar) ∧
    (∀ g : Chunk Digit, 2 ^ 32 ≤ g.value → cfg.strictOverflow = true →
      decGroup cfg (g.map cfg.digitToChar) = .error .numericOverflow) ∧
    ∀ g : Chunk Digit, 2 ^ 32 ≤ g.value → cfg.strictOverflow = false → ∃ w : GroupWord,
      decGroup cfg (g.map cfg.digitToChar) = .ok w ∧ w.toNat = g.value - 2 ^ 32 ∧
      encGroup cfg w ≠ g.map cfg.digitToChar

/-- 42_decoder R89: with the default table a group of alphabet characters overflows exactly when it sorts after `x<[0!`.
Rests on the spec's decision D4 (log 2). -/
def Obligations.DefaultOverflowingGroups : Prop :=
  ∀ g : Chunk Digit, 2 ^ 32 ≤ g.value ↔
    0x783C5B3021 < (packChars (g.map defaultConfig.digitToChar)).toNat

/-- 30_encoding R46: the `result` of an `ENC` used unchanged as the `operand` of a `DEC` gives the group value back, as
two steps of the machine, in both overflow modes. -/
def Obligations.EncResultDecodesBack : Prop :=
  ∀ (s : State) (rest : List Request) (w : BitVec 32), s.config.Legal → s.pending = encode (.enc w) :: rest →
    ∃ (t u : State) (x : Response), step s = .next t ∧ t.responses = s.responses ++ [x] ∧
      step { t with pending := BitVec.ofNat 42 (2 ^ 40 + (rspResult x).toNat) :: rest } = .next u ∧
      u.responses = s.responses ++ [x, BitVec.ofNat 54 w.toNat]

/-! ## The calls -/

/-- 43_buffer_calls R92: a call fails with InvalidLength exactly when the length is no multiple of 4 (encode) or 5
(decode), whatever the buffer holds; its status is 1 and the sequencer then issues no request: the block is untouched. -/
def Obligations.InvalidLengthExactly : Prop :=
  CallError.invalidLength.status.code = 1#3 ∧
  (∀ (cfg : Config) (b : List Byte), encodeCall cfg b = .error .invalidLength ↔ b.length % 4 ≠ 0) ∧
  (∀ (cfg : Config) (t : List Byte), decodeCall cfg t = .error .invalidLength ↔ t.length % 5 ≠ 0) ∧
  (∀ (s : State) (b : List Byte), b.length % 4 ≠ 0 → runEncode b s = some (s, .error .invalidLength)) ∧
  ∀ (s : State) (t : List Byte), t.length % 5 ≠ 0 → runDecode t s = some (s, .error .invalidLength)

/-- 43_buffer_calls R93: `encode` of whole groups succeeds, and the five characters at index 5g are those of the
big-endian group value of the bytes at index 4g. -/
def Obligations.EncodeCallGroupByGroup : Prop :=
  ∀ (cfg : Config) (b : List Byte), b.length % 4 = 0 → ∃ t : List Byte, encodeCall cfg b = .ok t ∧
    ∀ (g : Nat) (b0 b1 b2 b3 : Byte), b[4 * g]? = some b0 → b[4 * g + 1]? = some b1 → b[4 * g + 2]? = some b2 →
      b[4 * g + 3]? = some b3 →
      (t.drop (5 * g)).take 5 = (encGroup cfg (BitVec.ofNat 32
        (b0.toNat * 2 ^ 24 + b1.toNat * 2 ^ 16 + b2.toNat * 2 ^ 8 + b3.toNat))).toList

/-- 43_buffer_calls R94: when `decode` succeeds, every group decodes, and the four bytes at index 4g are those of the value
of the characters at index 5g, most significant first. -/
def Obligations.DecodeCallGroupByGroup : Prop :=
  ∀ (cfg : Config) (t b : List Byte), decodeCall cfg t = .ok b →
    ∀ (g : Nat) (c : Chunk Byte), (t.drop (5 * g)).take 5 = c.toList →
      ∃ w : GroupWord, decGroup cfg c = .ok w ∧
        ((b.drop (4 * g)).take 4).map BitVec.toNat =
          [w.toNat / 2 ^ 24, w.toNat / 2 ^ 16 % 256, w.toNat / 2 ^ 8 % 256, w.toNat % 256]

/-- 43_buffer_calls R96: the length law, for every call that succeeds. -/
def Obligations.CallLengthLaw : Prop :=
  (∀ (cfg : Config) (b t : List Byte), encodeCall cfg b = .ok t → t.length = 5 * b.length / 4) ∧
  ∀ (cfg : Config) (t b : List Byte), decodeCall cfg t = .ok b → b.length = 4 * t.length / 5

/-- 43_buffer_calls R95: what a failing `decode` reports. InvalidCharacter carries the index in the whole text of the first
code unit that is no alphabet character. NumericOverflow carries the index of a group of alphabet characters of value
2^32 or more, in strict mode. In both cases every earlier group decodes. -/
def Obligations.DecodeCallReportsFirstFailure : Prop :=
  ∀ (cfg : Config) (t : List Byte), cfg.Legal →
    (∀ (p : Nat) (c : Byte), decodeCall cfg t = .error (.invalidCharacter p c) →
      t[p]? = some c ∧ isSymbol c = false ∧ (∀ (j : Nat) (x : Byte), j < p → t[j]? = some x → isSymbol x = true) ∧
      ∃ b : List Byte, decodeCall cfg (t.take (5 * (p / 5))) = .ok b) ∧
    ∀ g : Nat, decodeCall cfg t = .error (.numericOverflow g) →
      cfg.strictOverflow = true ∧
      (∃ d : Chunk Digit, (t.drop (5 * g)).take 5 = (d.map cfg.digitToChar).toList ∧ 2 ^ 32 ≤ d.value) ∧
      ∃ b : List Byte, decodeCall cfg (t.take (5 * g)) = .ok b

/-- 43_buffer_calls R97 (d): a text of whole groups that holds a character outside the alphabet gives an error and no
output; in wrap mode the error is InvalidCharacter. -/
def Obligations.DecodeCallRejectsNonAlphabet : Prop :=
  ∀ (cfg : Config) (t : List Byte) (x : Byte), cfg.Legal → t.length % 5 = 0 → x ∈ t → isSymbol x = false →
    ∃ e : CallError, decodeCall cfg t = .error e ∧ e ≠ .invalidLength ∧
      (cfg.strictOverflow = false → ∃ (p : Nat) (c : Byte), e = .invalidCharacter p c)

/-- 43_buffer_calls R97 (a): decoding an encoded buffer gives it back, in both overflow modes; (c): the text in between
holds alphabet characters only. -/
def Obligations.BufferRoundTrip : Prop :=
  ∀ (cfg : Config) (b : List Byte), cfg.Legal → b.length % 4 = 0 →
    ∃ t : List Byte, encodeCall cfg b = .ok t ∧ (∀ c ∈ t, isSymbol c = true) ∧ decodeCall cfg t = .ok b

/-- 43_buffer_calls R97 (b) with conflict C3: encoding a decoded text gives it back exactly when every group of the text is
canonical; in strict mode a text that decodes at all is such a text. -/
def Obligations.TextRoundTripExactlyCanonical : Prop :=
  ∀ (cfg : Config) (t b : List Byte), cfg.Legal → decodeCall cfg t = .ok b →
    (encodeCall cfg b = .ok t ↔ CanonicalText cfg t) ∧ (cfg.strictOverflow = true → CanonicalText cfg t)

/-- 43_buffer_calls R98: the empty buffer, both ways, with no request issued. -/
def Obligations.EmptyBufferSucceeds : Prop :=
  ∀ (cfg : Config) (s : State), encodeCall cfg [] = .ok [] ∧ decodeCall cfg [] = .ok [] ∧
    runEncode [] s = some (s, .ok []) ∧ runDecode [] s = some (s, .ok [])

/-- The call `encode` is its run of requests (30_encoding R53, 43_buffer_calls R91, R93): the sequencer gets the output of
the function whatever other requests are pending, and on an idle block it issues one `ENC` for each group, in order.
R91 leaves it to a model how to show the runs: waiting behind the requests already pending is the model's choice (logs 6
and 12). -/
def Obligations.EncodeCallIsRunOfRequests : Prop :=
  ∀ (s : State) (b : List Byte), ∃ t : State,
    runEncode b s = some (t, encodeCall s.config b) ∧ t.config = s.config ∧
    (s.pending = [] → t.pending = [] ∧
      ∀ is : List Instr, expandEncode (b.map BitVec.toNat) = some is → t.answered = s.answered ++ is.map encode)

/-- The call `decode` is its run of requests (30_encoding R53, 43_buffer_calls R91, R94, R99): the sequencer gets the
outcome of the function whatever other requests are pending, and on an idle block it issues the `DEC` requests of the
groups in order, all of them when the call succeeds, and up to and with the first failing group otherwise. R91 leaves it
to a model how to show the runs: waiting behind the requests already pending is the model's choice (logs 6 and 12). -/
def Obligations.DecodeCallIsRunOfRequests : Prop :=
  ∀ (s : State) (x : List Byte), ∃ t : State,
    runDecode x s = some (t, decodeCall s.config x) ∧ t.config = s.config ∧
    (s.pending = [] → x.length % 5 = 0 → t.pending = [] ∧
      ∃ is : List Instr, expandDecode (x.map (fun c => Char.ofNat c.toNat)) = some is ∧
        ((∃ b : List Byte, decodeCall s.config x = .ok b) → t.answered = s.answered ++ is.map encode) ∧
        ∀ e : CallError, decodeCall s.config x = .error e → ∃ k : Nat, k < is.length ∧
          t.answered = s.answered ++ (is.take (k + 1)).map encode ∧
          (∃ b : List Byte, decodeCall s.config (x.take (5 * k)) = .ok b) ∧
          decodeCall s.config (x.take (5 * (k + 1))) = .error e)

/-! ## The assembler syntax -/

/-- 30_encoding R52: the request word of each form, as a number; an operand that does not fit its field has none. -/
def Obligations.AssembledFormsAreRequestWords : Prop :=
  (∀ n : Nat, assemble (.encWord n) = if n < 2 ^ 32 then some (BitVec.ofNat 42 n) else none) ∧
  (∀ b0 b1 b2 b3 : Byte, assemble (.encBytes b0.toNat b1.toNat b2.toNat b3.toNat) =
    some (BitVec.ofNat 42 (b0.toNat * 2 ^ 24 + b1.toNat * 2 ^ 16 + b2.toNat * 2 ^ 8 + b3.toNat))) ∧
  (∀ c0 c1 c2 c3 c4 : Byte, assemble (.decCodes c0.toNat c1.toNat c2.toNat c3.toNat c4.toNat) =
    some (BitVec.ofNat 42 (2 ^ 40 + c0.toNat * 2 ^ 32 + c1.toNat * 2 ^ 24 + c2.toNat * 2 ^ 16 + c3.toNat * 2 ^ 8 +
      c4.toNat))) ∧
  (∀ c0 c1 c2 c3 c4 : Char, assemble (.decText c0 c1 c2 c3 c4) =
    assemble (.decCodes c0.toNat c1.toNat c2.toNat c3.toNat c4.toNat)) ∧
  (∀ n : Nat, assemble (.fwd n) = if n ≤ 127 then some (BitVec.ofNat 42 (2 * 2 ^ 40 + n)) else none) ∧
  (∀ n : Nat, assemble (.revCode n) = if n < 256 then some (BitVec.ofNat 42 (3 * 2 ^ 40 + n)) else none) ∧
  ∀ c : Char, assemble (.revChar c) = assemble (.revCode c.toNat)
end

