-- ==== Sys2Proof/Laws/Calls.lean ====
section
/-! SUPPORT. One group of a call at a time, and one step of a run at a time. -/

namespace Sys2Proof.Machine

variable (cfg : Config)

@[simp] theorem encodeGroups_nil : encodeGroups cfg [] = [] := rfl

theorem encodeGroups_cons (b0 b1 b2 b3 : Byte) (rest : List Byte) :
    encodeGroups cfg (b0 :: b1 :: b2 :: b3 :: rest) =
      (encGroup cfg (wordOfBytes b0 b1 b2 b3)).toList ++ encodeGroups cfg rest := rfl

@[simp] theorem decodeGroups_nil (g : Nat) : decodeGroups cfg g [] = .ok [] := rfl

/-- A group that decodes. -/
theorem decodeGroups_cons_ok {g : Nat} {c0 c1 c2 c3 c4 : Byte} {rest : List Byte} {w : GroupWord}
    (h : decGroup cfg ⟨c0, c1, c2, c3, c4⟩ = .ok w) :
    decodeGroups cfg g (c0 :: c1 :: c2 :: c3 :: c4 :: rest) =
      (match decodeGroups cfg (g + 1) rest with
      | .error e => .error e
      | .ok out => .ok (bytesOfWord w ++ out)) := by
  cases hd : decodeGroups cfg (g + 1) rest <;> simp only [decodeGroups, h, hd]

/-- A group that does not decode decides the call. -/
theorem decodeGroups_cons_error {g : Nat} {c0 c1 c2 c3 c4 : Byte} {rest : List Byte} {e : DecError}
    (h : decGroup cfg ⟨c0, c1, c2, c3, c4⟩ = .error e) :
    decodeGroups cfg g (c0 :: c1 :: c2 :: c3 :: c4 :: rest) = .error (callError g e) := by
  rw [decodeGroups, h]

@[simp] theorem runSteps_zero (s : State) : runSteps 0 s = some s := rfl

/-- A run goes on after a step. -/
theorem runSteps_succ {s t : State} (k : Nat) (h : step s = .next t) : runSteps (k + 1) s = runSteps k t := by
  simp [runSteps, h]

end Sys2Proof.Machine
end

