-- ==== Sys2Proof/Laws/Decode.lean ====
section
/-! SUPPORT. The fields of a request word as numbers, the decoder by the value of `op`, and the encoder as a number. -/

namespace Sys2Proof

/-- A bit field of a word as a number. -/
theorem extractLsb'_toNat_div {n : Nat} (v : BitVec n) (a b : Nat) :
    (v.extractLsb' a b).toNat = v.toNat / 2 ^ a % 2 ^ b := by
  simp [BitVec.extractLsb'_toNat, Nat.shiftRight_eq_div_pow]

theorem opOf_toNat (r : Request) : (opOf r).toNat = r.toNat / 2 ^ 40 := by
  have := r.isLt
  rw [opOf, extractLsb'_toNat_div]
  omega

theorem operandOf_toNat (r : Request) : (operandOf r).toNat = r.toNat % 2 ^ 40 := by
  rw [operandOf, extractLsb'_toNat_div]
  omega

/-- The four values of `op` are all there are (30_encoding R42). -/
theorem op_cases (r : Request) :
    r.toNat / 2 ^ 40 = 0 ∨ r.toNat / 2 ^ 40 = 1 ∨ r.toNat / 2 ^ 40 = 2 ∨ r.toNat / 2 ^ 40 = 3 := by
  have := r.isLt
  omega

theorem decode_enc {r : Request} (h : r.toNat / 2 ^ 40 = 0) :
    decode r = if r.toNat % 2 ^ 40 / 2 ^ 32 ≠ 0 then .error .encReserved
      else .ok (.enc ((operandOf r).extractLsb' 0 32)) := by
  have h0 : opOf r = 0#2 := BitVec.eq_of_toNat_eq (by rw [opOf_toNat, h]; rfl)
  have h1 : (operandOf r).extractLsb' 32 8 ≠ 0 ↔ r.toNat % 2 ^ 40 / 2 ^ 32 ≠ 0 := by
    rw [ne_eq, ← BitVec.toNat_inj, extractLsb'_toNat_div, operandOf_toNat]
    simp
    omega
  simp only [decode, h0, h1]
  simp

theorem decode_dec {r : Request} (h : r.toNat / 2 ^ 40 = 1) :
    decode r = .ok (.dec ((operandOf r).extractLsb' 32 8) ((operandOf r).extractLsb' 24 8)
      ((operandOf r).extractLsb' 16 8) ((operandOf r).extractLsb' 8 8) ((operandOf r).extractLsb' 0 8)) := by
  have h0 : opOf r = 1#2 := BitVec.eq_of_toNat_eq (by rw [opOf_toNat, h]; rfl)
  simp only [decode, h0]
  simp

theorem decode_fwd {r : Request} (h : r.toNat / 2 ^ 40 = 2) :
    decode r = if r.toNat % 2 ^ 40 / 2 ^ 7 ≠ 0 then .error .fwdReserved
      else .ok (.fwd ((operandOf r).extractLsb' 0 7)) := by
  have h0 : opOf r = 2#2 := BitVec.eq_of_toNat_eq (by rw [opOf_toNat, h]; rfl)
  have h1 : (operandOf r).extractLsb' 7 33 ≠ 0 ↔ r.toNat % 2 ^ 40 / 2 ^ 7 ≠ 0 := by
    rw [ne_eq, ← BitVec.toNat_inj, extractLsb'_toNat_div, operandOf_toNat]
    simp
    omega
  simp only [decode, h0, h1]
  simp

theorem decode_rev {r : Request} (h : r.toNat / 2 ^ 40 = 3) :
    decode r = if r.toNat % 2 ^ 40 / 2 ^ 8 ≠ 0 then .error .revReserved
      else .ok (.rev ((operandOf r).extractLsb' 0 8)) := by
  have h0 : opOf r = 3#2 := BitVec.eq_of_toNat_eq (by rw [opOf_toNat, h]; rfl)
  have h1 : (operandOf r).extractLsb' 8 32 ≠ 0 ↔ r.toNat % 2 ^ 40 / 2 ^ 8 ≠ 0 := by
    rw [ne_eq, ← BitVec.toNat_inj, extractLsb'_toNat_div, operandOf_toNat]
    simp
    omega
  simp only [decode, h0, h1]
  simp

/-- The word of an operation as a number (30_encoding R42 to R44). -/
theorem encode_toNat (i : Instr) : (encode i).toNat = i.opNat * 2 ^ 40 + i.operandNat := by
  cases i with
  | enc w =>
    have := w.isLt
    simp only [encode, Instr.opNat, Instr.operandNat, BitVec.toNat_append]
    simp
  | fwd d =>
    have := d.isLt
    simp only [encode, Instr.opNat, Instr.operandNat, BitVec.toNat_append]
    rw [← Nat.shiftLeft_add_eq_or_of_lt (by simp; omega)]
    simp [Nat.shiftLeft_eq]
  | rev c =>
    have := c.isLt
    simp only [encode, Instr.opNat, Instr.operandNat, BitVec.toNat_append]
    rw [← Nat.shiftLeft_add_eq_or_of_lt (by simp; omega)]
    simp [Nat.shiftLeft_eq]
  | dec c0 c1 c2 c3 c4 =>
    have := c0.isLt; have := c1.isLt; have := c2.isLt; have := c3.isLt; have := c4.isLt
    simp only [encode, Instr.opNat, Instr.operandNat, BitVec.toNat_append]
    rw [← Nat.shiftLeft_add_eq_or_of_lt (by omega), ← Nat.shiftLeft_add_eq_or_of_lt (by omega),
      ← Nat.shiftLeft_add_eq_or_of_lt (by omega), ← Nat.shiftLeft_add_eq_or_of_lt (by omega),
      ← Nat.shiftLeft_add_eq_or_of_lt (by omega)]
    simp [Nat.shiftLeft_eq]
    omega

end Sys2Proof
end

