-- ==== Sys2Proof/Laws/Roms.lean ====
section
/-! SUPPORT. What a read of the two ROMs gives. -/

namespace Sys2Proof.Machine

variable (cfg : Config)

/-- A digit found by the reverse lookup is a digit of that character. -/
theorem digitToChar_of_charToDigit {c : Byte} {d : Digit} (h : charToDigit cfg c = some d) : cfg.digitToChar d = c := by
  have := List.find?_some h
  simpa using this

/-- The reverse lookup finds nothing exactly when no digit has the character. -/
theorem charToDigit_eq_none_iff {c : Byte} : charToDigit cfg c = none ↔ ∀ d : Digit, cfg.digitToChar d ≠ c := by
  simp [charToDigit, List.find?_eq_none, List.mem_finRange]

/-- Everything the reverse lookup can answer. -/
theorem charToDigit_cases (c : Byte) :
    (charToDigit cfg c = none ∧ ∀ d : Digit, cfg.digitToChar d ≠ c) ∨
    ∃ d, charToDigit cfg c = some d ∧ cfg.digitToChar d = c := by
  cases h : charToDigit cfg c with
  | none => exact .inl ⟨rfl, (charToDigit_eq_none_iff cfg).1 h⟩
  | some d => exact .inr ⟨d, rfl, digitToChar_of_charToDigit cfg h⟩

/-- Everything the forward ROM can answer. -/
theorem fwdRom_cases (a : cfg.FwdAddr) :
    (∃ h : a.toNat < 85, fwdRom cfg a = .ok (cfg.digitToChar ⟨a.toNat, h⟩)) ∨
    (85 ≤ a.toNat ∧ fwdRom cfg a = .error .digitRange) := by
  by_cases h : a.toNat < 85
  · exact .inl ⟨h, by simp [fwdRom, h]⟩
  · exact .inr ⟨by omega, by simp [fwdRom, h]⟩

/-- Everything the reverse ROM can answer. -/
theorem revRom_cases (c : Byte) :
    (charToDigit cfg c = none ∧ revRom cfg c = invalidMarker cfg) ∨
    ∃ d, charToDigit cfg c = some d ∧ revRom cfg c = BitVec.ofNat cfg.revWordBits d.val := by
  cases h : charToDigit cfg c with
  | none => exact .inl ⟨rfl, by simp [revRom, h]⟩
  | some d => exact .inr ⟨d, rfl, by simp [revRom, h]⟩

/-- The number a reverse-table word stands for: the digit, or 256 for none (40_alphabet_roms R63). -/
def revNumber (cfg : Config) (c : Byte) : Nat := ((charToDigit cfg c).map Fin.val).getD 256

theorem revNumber_le (c : Byte) : revNumber cfg c ≤ 256 := by
  cases h : charToDigit cfg c with
  | none => simp [revNumber, h]
  | some d => have := d.isLt; simp [revNumber, h]; omega

/-- The reverse ROM holds the word of that number. -/
theorem revRom_eq_ofNat (c : Byte) : revRom cfg c = BitVec.ofNat cfg.revWordBits (revNumber cfg c) := by
  cases h : charToDigit cfg c <;> simp [revRom, revNumber, h, invalidMarker]

/-- A word of 9 bits or more holds the number itself. -/
theorem revRom_toNat (hw : 9 ≤ cfg.revWordBits) (c : Byte) : (revRom cfg c).toNat = revNumber cfg c := by
  have hp : 2 ^ 9 ≤ 2 ^ cfg.revWordBits := Nat.pow_le_pow_right (by decide) hw
  have := revNumber_le cfg c
  rw [revRom_eq_ofNat, BitVec.toNat_ofNat, Nat.mod_eq_of_lt (by omega)]

end Sys2Proof.Machine
end

