-- ==== Sys2Proof/Laws/Decoder.lean ====
section
/-! SUPPORT. What the fold, the overflow test and `DecGroup` can answer. -/

namespace Sys2Proof.Machine

variable (cfg : Config)

/-- With 33 bits or more, one multiply-accumulate of a value below 85^4 loses nothing (42_decoder R86). -/
theorem mulAcc_exact {acc : Nat} (d : Digit) (hb : 33 ≤ cfg.accBits) (ha : acc < 85 ^ 4) :
    mulAcc cfg acc d = acc * 85 + d.val := by
  have hp : (2 : Nat) ^ 33 ≤ 2 ^ cfg.accBits := Nat.pow_le_pow_right (by decide) hb
  have := d.isLt
  unfold mulAcc radix
  exact Nat.mod_eq_of_lt (by omega)

@[simp] theorem decFold_nil (acc : Nat) : decFold cfg [] acc = .ok acc := rfl

/-- One turn of the fold at an invalid character. -/
theorem decFold_cons_invalid {i : Fin 5} {c : Byte} {rest : List (Fin 5 × Byte)} {acc : Nat}
    (h : charToDigit cfg c = none) : decFold cfg ((i, c) :: rest) acc = .error (.invalidCharacter i c) := by
  simp [decFold, h]

/-- One turn of the fold at a valid character. -/
theorem decFold_cons_valid {i : Fin 5} {c : Byte} {rest : List (Fin 5 × Byte)} {acc : Nat} {d : Digit}
    (h : charToDigit cfg c = some d) :
    decFold cfg ((i, c) :: rest) acc = decFold cfg rest (mulAcc cfg acc d) := by
  simp [decFold, h]

/-- The overflow test's two answers. -/
theorem narrowAcc_cases (acc : Nat) :
    (2 ^ 32 ≤ acc ∧ cfg.strictOverflow = true ∧ narrowAcc cfg acc = .error .numericOverflow) ∨
    (¬ (2 ^ 32 ≤ acc ∧ cfg.strictOverflow = true) ∧ narrowAcc cfg acc = .ok (BitVec.ofNat 32 acc)) := by
  by_cases h : 2 ^ 32 ≤ acc ∧ cfg.strictOverflow = true
  · exact .inl ⟨h.1, h.2, if_pos h⟩
  · exact .inr ⟨h, if_neg h⟩

/-- `DecGroup` after a fold that failed. -/
theorem decGroup_of_decFold_error {g : Chunk Byte} {e : DecError} (h : decFold cfg g.indexed 0 = .error e) :
    decGroup cfg g = .error e := by
  simp [decGroup, h]

/-- `DecGroup` after a fold that gave an accumulator. -/
theorem decGroup_of_decFold_ok {g : Chunk Byte} {acc : Nat} (h : decFold cfg g.indexed 0 = .ok acc) :
    decGroup cfg g = narrowAcc cfg acc := by
  simp [decGroup, h]

end Sys2Proof.Machine
end

