-- ==== Sys2Proof/Laws/State.lean ====
section
/-! SUPPORT. One lemma per field per update of the state. -/

namespace Sys2Proof.Machine

section
variable (s : State) (r : Request) (w : Response) (f : Field40) (e : Error) (a : Answer) (j : Reject)

@[simp] theorem present_config : (present r s).config = s.config := rfl
@[simp] theorem present_pending : (present r s).pending = s.pending ++ [r] := rfl
@[simp] theorem present_answered : (present r s).answered = s.answered := rfl
@[simp] theorem present_responses : (present r s).responses = s.responses := rfl

@[simp] theorem presentFirst_config : (presentFirst r s).config = s.config := rfl
@[simp] theorem presentFirst_pending : (presentFirst r s).pending = r :: s.pending := rfl
@[simp] theorem presentFirst_answered : (presentFirst r s).answered = s.answered := rfl
@[simp] theorem presentFirst_responses : (presentFirst r s).responses = s.responses := rfl

@[simp] theorem respond_config : (respond w s).config = s.config := rfl
@[simp] theorem respond_pending : (respond w s).pending = s.pending := rfl
@[simp] theorem respond_answered : (respond w s).answered = s.answered := rfl
@[simp] theorem respond_responses : (respond w s).responses = s.responses ++ [w] := rfl

@[simp] theorem reset_config : State.reset.config = defaultConfig := rfl
@[simp] theorem reset_pending : State.reset.pending = [] := rfl
@[simp] theorem reset_answered : State.reset.answered = [] := rfl
@[simp] theorem reset_responses : State.reset.responses = [] := rfl

/-- Ending with a result is giving its word. -/
theorem finish_eq_respond : finish f s = respond (packAnswer (.ok f)) s := rfl

/-- Raising an error is giving its word, and nothing else. -/
theorem raise_eq_respond : raise e s = respond (packAnswer (.error e)) s := rfl

/-- A rejected request word raises IllegalRequest. -/
theorem rejectRequest_eq_respond : rejectRequest j s = respond (packAnswer (.error .illegalRequest)) s := rfl

/-- Ending with an answer is giving its word. -/
theorem answer_eq_respond : answer a s = respond (packAnswer a) s := by
  cases a <;> rfl

end

/-- Everything taking a request can do. -/
theorem takeRequest_cases (s : State) :
    (s.pending = [] ∧ takeRequest s = none) ∨
    ∃ r rest, s.pending = r :: rest ∧
      takeRequest s = some (r, ⟨s.config, rest, s.answered ++ [r], s.responses⟩) := by
  cases h : s.pending with
  | nil => exact .inl ⟨rfl, by simp [takeRequest, h]⟩
  | cons r rest => exact .inr ⟨r, rest, rfl, by simp [takeRequest, h]⟩

end Sys2Proof.Machine
end

