-- ==== Sys2Proof/Laws/Words.lean ====
section
/-! SUPPORT. The fields of a response word, the packing and unpacking of operands and results, as bits and as numbers. -/

namespace Sys2Proof.Machine

section
variable (st pos : BitVec 3) (val : Byte) (f : Field40)

/-- A response word as a number. -/
theorem responseWord_toNat :
    (responseWord st pos val f).toNat = st.toNat * 2 ^ 51 + pos.toNat * 2 ^ 48 + val.toNat * 2 ^ 40 + f.toNat := by
  have h1 := st.isLt; have h2 := pos.isLt; have h3 := val.isLt; have h4 := f.isLt
  simp only [responseWord, BitVec.toNat_append]
  rw [← Nat.shiftLeft_add_eq_or_of_lt (by omega), ← Nat.shiftLeft_add_eq_or_of_lt (by omega),
    ← Nat.shiftLeft_add_eq_or_of_lt (by omega)]
  simp only [Nat.shiftLeft_eq]
  omega

@[simp] theorem rspStatus_responseWord : rspStatus (responseWord st pos val f) = st := by
  apply BitVec.eq_of_toNat_eq
  have h1 := st.isLt; have h2 := pos.isLt; have h3 := val.isLt; have h4 := f.isLt
  rw [rspStatus, BitVec.extractLsb'_toNat, responseWord_toNat, Nat.shiftRight_eq_div_pow]
  omega

@[simp] theorem rspErrPos_responseWord : rspErrPos (responseWord st pos val f) = pos := by
  apply BitVec.eq_of_toNat_eq
  have h1 := st.isLt; have h2 := pos.isLt; have h3 := val.isLt; have h4 := f.isLt
  rw [rspErrPos, BitVec.extractLsb'_toNat, responseWord_toNat, Nat.shiftRight_eq_div_pow]
  omega

@[simp] theorem rspErrVal_responseWord : rspErrVal (responseWord st pos val f) = val := by
  apply BitVec.eq_of_toNat_eq
  have h1 := st.isLt; have h2 := pos.isLt; have h3 := val.isLt; have h4 := f.isLt
  rw [rspErrVal, BitVec.extractLsb'_toNat, responseWord_toNat, Nat.shiftRight_eq_div_pow]
  omega

@[simp] theorem rspResult_responseWord : rspResult (responseWord st pos val f) = f := by
  apply BitVec.eq_of_toNat_eq
  have h1 := st.isLt; have h2 := pos.isLt; have h3 := val.isLt; have h4 := f.isLt
  rw [rspResult, BitVec.extractLsb'_toNat, responseWord_toNat, Nat.shiftRight_eq_div_pow]
  omega

end

/-- The word of an OK answer is its result as a number. -/
theorem packAnswer_ok (f : Field40) : packAnswer (.ok f) = BitVec.ofNat 54 f.toNat := by
  apply BitVec.eq_of_toNat_eq
  have h := f.isLt
  simp only [packAnswer, responseWord_toNat, BitVec.toNat_ofNat, Status.code]
  simp
  omega

/-- Five packed characters as a number. -/
theorem packChars_toNat (g : Chunk Byte) :
    (packChars g).toNat =
      g.c0.toNat * 2 ^ 32 + g.c1.toNat * 2 ^ 24 + g.c2.toNat * 2 ^ 16 + g.c3.toNat * 2 ^ 8 + g.c4.toNat := by
  have h0 := g.c0.isLt; have h1 := g.c1.isLt; have h2 := g.c2.isLt; have h3 := g.c3.isLt; have h4 := g.c4.isLt
  simp only [packChars, BitVec.toNat_append]
  rw [← Nat.shiftLeft_add_eq_or_of_lt (by omega), ← Nat.shiftLeft_add_eq_or_of_lt (by omega),
    ← Nat.shiftLeft_add_eq_or_of_lt (by omega), ← Nat.shiftLeft_add_eq_or_of_lt (by omega)]
  simp only [Nat.shiftLeft_eq]
  omega

/-- Unpacking five packed characters gives them back. -/
@[simp] theorem unpackChars_packChars (g : Chunk Byte) : unpackChars (packChars g) = g := by
  have h0 := g.c0.isLt; have h1 := g.c1.isLt; have h2 := g.c2.isLt; have h3 := g.c3.isLt; have h4 := g.c4.isLt
  obtain ⟨c0, c1, c2, c3, c4⟩ := g
  simp only [unpackChars, Chunk.mk.injEq]
  refine ⟨?_, ?_, ?_, ?_, ?_⟩ <;> apply BitVec.eq_of_toNat_eq <;>
    rw [BitVec.extractLsb'_toNat, packChars_toNat, Nat.shiftRight_eq_div_pow] <;> simp only at * <;> omega

/-- Packing five unpacked characters gives the field back. -/
@[simp] theorem packChars_unpackChars (f : Field40) : packChars (unpackChars f) = f := by
  apply BitVec.eq_of_toNat_eq
  have := f.isLt
  simp only [packChars_toNat, unpackChars, BitVec.extractLsb'_toNat, Nat.shiftRight_eq_div_pow]
  omega

/-- A group value of four bytes as a number (20_memory R23). -/
theorem wordOfBytes_toNat (b0 b1 b2 b3 : Byte) :
    (wordOfBytes b0 b1 b2 b3).toNat = b0.toNat * 2 ^ 24 + b1.toNat * 2 ^ 16 + b2.toNat * 2 ^ 8 + b3.toNat := by
  have h0 := b0.isLt; have h1 := b1.isLt; have h2 := b2.isLt; have h3 := b3.isLt
  simp only [wordOfBytes, BitVec.toNat_append]
  rw [← Nat.shiftLeft_add_eq_or_of_lt (by omega), ← Nat.shiftLeft_add_eq_or_of_lt (by omega),
    ← Nat.shiftLeft_add_eq_or_of_lt (by omega)]
  simp only [Nat.shiftLeft_eq]
  omega

/-- Splitting a group value made of four bytes gives them back. -/
@[simp] theorem bytesOfWord_wordOfBytes (b0 b1 b2 b3 : Byte) :
    bytesOfWord (wordOfBytes b0 b1 b2 b3) = [b0, b1, b2, b3] := by
  have h0 := b0.isLt; have h1 := b1.isLt; have h2 := b2.isLt; have h3 := b3.isLt
  simp only [bytesOfWord, List.cons.injEq, and_true]
  refine ⟨?_, ?_, ?_, ?_⟩ <;> apply BitVec.eq_of_toNat_eq <;>
    rw [BitVec.extractLsb'_toNat, wordOfBytes_toNat, Nat.shiftRight_eq_div_pow] <;> omega

/-- An address space of 7 bits or more has an address for every digit an operand can carry. -/
theorem fwdAddrOfOperand_toNat (d : BitVec 7) {addrBits : Nat} (h : 7 ≤ addrBits) :
    (fwdAddrOfOperand d addrBits).toNat = d.toNat := by
  have hp : 2 ^ 7 ≤ 2 ^ addrBits := Nat.pow_le_pow_right (by decide) h
  have := d.isLt
  rw [fwdAddrOfOperand, BitVec.toNat_setWidth, Nat.mod_eq_of_lt (by omega)]

/-- A word of 9 bits or more carries every number below 512 into the result field. -/
theorem packRevWord_ofNat {wordBits n : Nat} (h : 9 ≤ wordBits) (hn : n < 2 ^ 9) :
    packRevWord (BitVec.ofNat wordBits n) = BitVec.ofNat 40 n := by
  have hp : 2 ^ 9 ≤ 2 ^ wordBits := Nat.pow_le_pow_right (by decide) h
  apply BitVec.eq_of_toNat_eq
  rw [packRevWord, BitVec.toNat_setWidth, BitVec.toNat_setWidth, BitVec.toNat_ofNat, BitVec.toNat_ofNat,
    Nat.mod_eq_of_lt (show n < 2 ^ wordBits by omega), Nat.mod_eq_of_lt hn]

/-- Unpacking a packed group value gives it back. -/
@[simp] theorem unpackWord_packWord (w : GroupWord) : unpackWord (packWord w) = w := by
  apply BitVec.eq_of_toNat_eq
  have := w.isLt
  simp [unpackWord, packWord]
  omega

end Sys2Proof.Machine
end

