-- ==== Sys2Proof/Laws/Exec.lean ====
section
/-! SUPPORT. The answer of each operation as a function of the parameters, and what a step can do. -/

namespace Sys2Proof.Machine

/-- The answer of an operation; every meaning gives exactly this response and does nothing else. -/
def answerOf (cfg : Config) : Instr → Answer
  | .enc w => .ok (packChars (encGroup cfg w))
  | .dec c0 c1 c2 c3 c4 =>
    match decGroup cfg ⟨c0, c1, c2, c3, c4⟩ with
    | .ok w => .ok (packWord w)
    | .error e => .error e.toError
  | .fwd d =>
    if 84 < d.toNat then .error .digitRange
    else
      match fwdRom cfg (fwdAddrOfOperand d cfg.fwdAddrBits) with
      | .ok c => .ok (packChar c)
      | .error e => .error e
  | .rev c => .ok (packRevWord (revRom cfg c))

/-- The answer of `FWD` does not depend on the width of the forward ROM's address, from 7 bits on. -/
theorem answerOf_fwd (cfg : Config) (hw : 7 ≤ cfg.fwdAddrBits) (d : BitVec 7) :
    answerOf cfg (.fwd d) =
      if h : d.toNat < 85 then .ok (packChar (cfg.digitToChar ⟨d.toNat, h⟩)) else .error .digitRange := by
  by_cases h : d.toNat < 85
  · have hn : ¬ 84 < d.toNat := by omega
    simp [answerOf, fwdRom, fwdAddrOfOperand_toNat d hw, h, hn]
  · have hn : 84 < d.toNat := by omega
    simp [answerOf, h, hn]

/-- The answer of `REV` does not depend on the width of the reverse ROM's word, from 9 bits on. -/
theorem answerOf_rev (cfg : Config) (hw : 9 ≤ cfg.revWordBits) (c : Byte) :
    answerOf cfg (.rev c) = .ok (BitVec.ofNat 40 (revNumber cfg c)) := by
  have := revNumber_le cfg c
  rw [answerOf, revRom_eq_ofNat, packRevWord_ofNat hw (by omega)]

theorem execEnc_eq (w : BitVec 32) (s : State) :
    execEnc w s = .next (respond (packAnswer (answerOf s.config (.enc w))) s) := rfl

theorem execDec_eq (c0 c1 c2 c3 c4 : BitVec 8) (s : State) :
    execDec c0 c1 c2 c3 c4 s = .next (respond (packAnswer (answerOf s.config (.dec c0 c1 c2 c3 c4))) s) := by
  cases h : decGroup s.config ⟨c0, c1, c2, c3, c4⟩ <;>
    simp [execDec, answerOf, h, finish_eq_respond, raise_eq_respond]

theorem execFwd_eq (d : BitVec 7) (s : State) :
    execFwd d s = .next (respond (packAnswer (answerOf s.config (.fwd d))) s) := by
  by_cases hd : 84 < d.toNat
  · simp [execFwd, answerOf, hd, raise_eq_respond]
  · cases h : fwdRom s.config (fwdAddrOfOperand d s.config.fwdAddrBits) <;>
      simp [execFwd, answerOf, hd, h, finish_eq_respond, raise_eq_respond]

theorem execRev_eq (c : BitVec 8) (s : State) :
    execRev c s = .next (respond (packAnswer (answerOf s.config (.rev c))) s) := rfl

/-- Everything an operation can do: it gives the response word of its answer. -/
theorem exec_eq (i : Instr) (s : State) : exec i s = .next (respond (packAnswer (answerOf s.config i)) s) := by
  cases i with
  | enc w => exact execEnc_eq w s
  | dec c0 c1 c2 c3 c4 => exact execDec_eq c0 c1 c2 c3 c4 s
  | fwd d => exact execFwd_eq d s
  | rev c => exact execRev_eq c s

/-- The answer to a request word. -/
def answerOfRequest (cfg : Config) (r : Request) : Answer :=
  match decode r with
  | .ok i => answerOf cfg i
  | .error _ => .error .illegalRequest

/-- Everything a step can do. -/
theorem step_cases (s : State) :
    (s.pending = [] ∧ step s = .next s) ∨
    ∃ r rest, s.pending = r :: rest ∧
      step s = .next ⟨s.config, rest, s.answered ++ [r], s.responses ++ [packAnswer (answerOfRequest s.config r)]⟩ := by
  obtain ⟨hp, ht⟩ | ⟨r, rest, hp, ht⟩ := takeRequest_cases s
  · exact .inl ⟨hp, by simp [step, ht]⟩
  · refine .inr ⟨r, rest, hp, ?_⟩
    cases hd : decode r with
    | ok i => simp [step, ht, hd, exec_eq, answerOfRequest, respond]
    | error e => simp [step, ht, hd, rejectRequest_eq_respond, answerOfRequest, respond]

end Sys2Proof.Machine
end

