-- ==== Sys2Proof/Laws/PerInstr.lean ====
section
/-! SUPPORT. What holds of every operation as syntax, one lemma per constructor: the family EncodeSelectsOwnRow. -/

namespace Sys2Proof.Laws.EncodeSelectsOwnRow

/-- The word of an operation selects the row of 30_encoding R54 that bears its mnemonic. -/
def Statement (i : Instr) : Prop :=
  ∃ row ∈ opcodeTable, row.mnemonic = mnemonicOf i ∧ row.selects (encode i) = true

theorem enc (w : BitVec 32) : Statement (.enc w) := by
  refine ⟨⟨"ENC", 0x00000000000#42, 0x3FF00000000#42⟩, by decide, rfl, ?_⟩
  rw [TableRow.selects, beq_iff_eq]
  apply BitVec.eq_of_getLsbD_eq
  intro i hi
  simp only [encode, BitVec.getLsbD_and, BitVec.getLsbD_append, BitVec.getLsbD_ofNat]
  interval_cases i <;> simp [Nat.testBit]

theorem dec (c0 c1 c2 c3 c4 : BitVec 8) : Statement (.dec c0 c1 c2 c3 c4) := by
  refine ⟨⟨"DEC", 0x10000000000#42, 0x30000000000#42⟩, by decide, rfl, ?_⟩
  rw [TableRow.selects, beq_iff_eq]
  apply BitVec.eq_of_getLsbD_eq
  intro i hi
  simp only [encode, BitVec.getLsbD_and, BitVec.getLsbD_append, BitVec.getLsbD_ofNat]
  interval_cases i <;> simp [Nat.testBit]

theorem fwd (d : BitVec 7) : Statement (.fwd d) := by
  refine ⟨⟨"FWD", 0x20000000000#42, 0x3FFFFFFFF80#42⟩, by decide, rfl, ?_⟩
  rw [TableRow.selects, beq_iff_eq]
  apply BitVec.eq_of_getLsbD_eq
  intro i hi
  simp only [encode, BitVec.getLsbD_and, BitVec.getLsbD_append, BitVec.getLsbD_ofNat]
  interval_cases i <;> simp [Nat.testBit]

theorem rev (c : BitVec 8) : Statement (.rev c) := by
  refine ⟨⟨"REV", 0x30000000000#42, 0x3FFFFFFFF00#42⟩, by decide, rfl, ?_⟩
  rw [TableRow.selects, beq_iff_eq]
  apply BitVec.eq_of_getLsbD_eq
  intro i hi
  simp only [encode, BitVec.getLsbD_and, BitVec.getLsbD_append, BitVec.getLsbD_ofNat]
  interval_cases i <;> simp [Nat.testBit]

end Sys2Proof.Laws.EncodeSelectsOwnRow
end

