-- ==== Sys2Proof/Tests/Slice0.lean ====
section
/-! SUPPORT. Tests with the expected results of spec/95_test_vectors.md and of the worked encodings of
spec/30_encoding.md section 6 (named V-… where one is used), and a witness for the hypotheses of every statement. -/

namespace Sys2Proof.Tests

open Sys2Proof.Machine

/-- A block at the default parameters with these requests presented. -/
def demo (pending : List Request) : State := ⟨defaultConfig, pending, [], []⟩

/-- The default parameters in wrap mode. -/
def wrapConfig : Config := { defaultConfig with strictOverflow := false }

/-- The default parameters with wider ROMs. -/
def wideConfig : Config := { defaultConfig with fwdAddrBits := 8, revWordBits := 16 }

/-- The responses after one step, if it answers a next state. -/
def responsesAfter (o : Host.Outcome State Fault Refusal) : Option (List Response) :=
  match o with
  | .next t => some t.responses
  | .fault _ => none
  | .refused _ => none

/-- The code units of a string's characters. -/
def units (cs : List Char) : List Byte := cs.map (fun c => byteOfNat c.toNat)

/-! ## Well-formedness: one ill-formed term for each check -/

theorem test_wellFormed_refuses_enc_reserved : Request.wellFormed 0x00100000000#42 = false := by decide
theorem test_wellFormed_refuses_fwd_reserved : Request.wellFormed 0x20000000080#42 = false := by decide
theorem test_wellFormed_refuses_rev_reserved : Request.wellFormed 0x30000000100#42 = false := by decide
theorem test_wellFormed_accepts :
    [0x000FFFFFFFF#42, 0x1FFFFFFFFFF#42, 0x2000000007F#42, 0x300000000FF#42].all Request.wellFormed = true := by decide
theorem test_asm_wellFormed_refuses :
    [AsmRequest.encWord (2 ^ 32), .encBytes 1 2 256 3, .decText 'a' 'b' 'c' 'd' (Char.ofNat 0x100), .decCodes 0 0 0 0 256,
      .fwd 128, .revCode 256, .revChar (Char.ofNat 0x2124)].all (fun a => !a.wellFormed) = true := by decide

/-! ## Decoding: words written out from the bit patterns of 30_encoding R54 -/

theorem test_decode_enc : decode 0b000000000000010010001101000101011001111000#42 = .ok (.enc 0x12345678) := by decide
theorem test_decode_dec :
    decode 0b010010000100100011001001000010010101111010#42 = .ok (.dec 0x21 0x23 0x24 0x25 0x7A) := by decide
theorem test_decode_fwd : decode 0b100000000000000000000000000000000001010100#42 = .ok (.fwd 84) := by decide
theorem test_decode_rev : decode 0b110000000000000000000000000000000001111010#42 = .ok (.rev 0x7A) := by decide
theorem test_decode_rejects :
    decode 0x0FF00000000#42 = .error .encReserved ∧ decode 0x2FFFFFFFFFF#42 = .error .fwdReserved ∧
    decode 0x3FFFFFFFFFF#42 = .error .revReserved := by decide
theorem test_encode_words :
    encode (.enc 0xFFFFFFFF) = 0x000FFFFFFFF#42 ∧ encode (.dec 0x78 0x3C 0x5B 0x30 0x23) = 0x1783C5B3023#42 ∧
    encode (.fwd 85) = 0x20000000055#42 ∧ encode (.rev 0x20) = 0x30000000020#42 := by decide
theorem test_decodeTableWord :
    decodeTableWord 48 0x20000000054 = some (.fwd 84) ∧ decodeTableWord 42 0 = some (.enc 0) ∧
    decodeTableWord 48 0x00100000000 = none ∧ decodeTableWord 48 (2 ^ 42) = none := by decide

/-! ## The tables -/

/-- The default parameters meet the constraints of 00_scope R6. -/
theorem test_defaultConfig_legal : defaultConfig.Legal where
  range := by decide +kernel
  injective := by decide +kernel
  zero := by decide
  one := by decide
  accBits := by decide
  revWordBits := by decide
  fwdAddrBits := by decide

/-- So do they in wrap mode. -/
theorem test_wrapConfig_legal : wrapConfig.Legal where
  range := test_defaultConfig_legal.range
  injective := test_defaultConfig_legal.injective
  zero := by decide
  one := by decide
  accBits := by decide
  revWordBits := by decide
  fwdAddrBits := by decide

/-- 40_alphabet_roms R60: the set is the printable range less nine characters. -/
theorem test_symbol_set : ∀ c : Byte, isSymbol c =
    (decide (0x21 ≤ c.toNat ∧ c.toNat ≤ 0x7E) && !([0x22, 0x26, 0x2C, 0x3B, 0x5C, 0x7B, 0x7C, 0x7D, 0x7E] : List Byte).contains c) := by
  decide +kernel

/-! ## One step per operation (V-F15, V-F16, V-F18, V-R2, V-R7, V-E23, V-E14, V-D5, V-D7, V-D15, V-D17) -/

theorem test_step_fwd_last_and_first_empty :
    responsesAfter (step (demo [0x20000000054#42])) = some [0x0000000000007A#54] ∧
    responsesAfter (step (demo [0x20000000055#42])) = some [0x20000000000000#54] := by decide
theorem test_step_fwd_illegal : responsesAfter (step (demo [0x20000000080#42])) = some [0x28000000000000#54] := by decide
theorem test_withFetchWord :
    responsesAfter (step (State.reset.withFetchWord 48 0x20000000054)) = some [0x0000000000007A#54] := by decide
/-- The formats of FWD and REV do not change with the widths of the ROMs. -/
theorem test_step_wide_roms :
    responsesAfter (step ⟨wideConfig, [0x20000000054#42], [], []⟩) = some [0x0000000000007A#54] ∧
    responsesAfter (step ⟨wideConfig, [0x20000000055#42], [], []⟩) = some [0x20000000000000#54] ∧
    responsesAfter (step ⟨wideConfig, [0x30000000020#42], [], []⟩) = some [0x00000000000100#54] := by decide
theorem test_step_rev_invalid_is_ok :
    responsesAfter (step (demo [0x30000000020#42])) = some [0x00000000000100#54] := by decide
theorem test_step_rev_backtick : responsesAfter (step (demo [0x30000000060#42])) = some [0x0000000000003A#54] := by decide
theorem test_step_enc : responsesAfter (step (demo [0x00012345678#42])) = some [0x0000286E405D39#54] := by decide
theorem test_step_enc_largest : responsesAfter (step (demo [0x000FFFFFFFF#42])) = some [0x0000783C5B3021#54] := by decide
theorem test_step_dec_overflow_by_mode :
    responsesAfter (step (demo [0x17A7A7A7A7A#42])) = some [0x18000000000000#54] ∧
    responsesAfter (step ⟨wrapConfig, [0x17A7A7A7A7A#42], [], []⟩) = some [0x00000008780EC4#54] := by decide
theorem test_step_dec_errors_in_order :
    responsesAfter (step (demo [0x12021222121#42])) = some [0x10200000000000#54] ∧
    responsesAfter (step (demo [0x17A7A7A7A20#42])) = some [0x14200000000000#54] := by decide

/-- 60_exceptions R109: the request after a failed one is answered as if the failed one had not been made (program P6,
steps 9 and 10). -/
theorem test_error_leaves_nothing :
    (runSteps 2 (demo [0x20000000055#42, 0x3000000005B#42])).map (fun t => t.responses) =
      some [0x20000000000000#54, 0x00000000000036#54] := by decide

/-! ## Responses, calls and assembler lines -/

theorem test_parseResponse_refuses :
    parseResponse 0x08000000000000#54 = none ∧ parseResponse 0x30000000000000#54 = none ∧
    parseResponse 0x18000000000001#54 = none ∧ parseResponse 0x15000000000000#54 = none := by decide
/-- V-C3 and V-C4. -/
theorem test_encodeCall :
    encodeCall defaultConfig [0x48, 0x65, 0x6C, 0x6C, 0x6F, 0x21, 0x21, 0x21] =
      .ok (units ['<', ':', 'h', 'Y', 'V', 'H', 'b', 'u', '<', 'M']) ∧
    encodeCall defaultConfig [1, 2, 3, 4, 5] = .error .invalidLength := by decide
/-- V-C9 in both modes. -/
theorem test_decodeCall_first_failing_group :
    decodeCall defaultConfig (units ['x', '<', '[', '0', '#', '!', '!', ' ', '!', '!']) = .error (.numericOverflow 0) ∧
    decodeCall wrapConfig (units ['x', '<', '[', '0', '#', '!', '!', ' ', '!', '!']) =
      .error (.invalidCharacter 7 0x20) := by decide
/-- Program P2 as a run of requests. -/
theorem test_runDecode :
    (runDecode (units ['!', '!', '!', '!', '#', 'x', '<', '[', '0', '!']) (demo [])).map
      (fun p => (p.2, p.1.answered)) =
      some (.ok [0, 0, 0, 1, 0xFF, 0xFF, 0xFF, 0xFF], [0x12121212123#42, 0x1783C5B3021#42]) := by decide
theorem test_readLine_requests :
    readLine ['F', 'W', 'D', ' ', '8', '4', ' ', ';', 'x'] = some (.request (.fwd 84)) ∧
    readLine ['R', 'E', 'V', ' ', '\'', ';', '\''] = some (.request (.revChar ';')) ∧
    readLine ['D', 'E', 'C', ' ', '"', '!', '\\', '"', ';', '!', '\\', '\\', '"'] =
      some (.request (.decText '!' '"' ';' '!' '\\')) ∧
    readLine ['E', 'N', 'C', ' ', '0', 'x', 'D', 'E', 'A', 'D', 'B', 'E', 'E', 'F'] =
      some (.request (.encWord 0xDEADBEEF)) := by decide
theorem test_readLine_lists_and_refusals :
    readLine ['E', 'N', 'C', ' ', '[', '1', ',', ' ', '0', 'x', 'F', 'f', ',', '0', ',', '9', ']'] =
      some (.request (.encBytes 1 255 0 9)) ∧
    readLine ['E', 'N', 'C', 'O', 'D', 'E', ' ', '[', ']'] = some (.encodeCall []) ∧
    readLine [' ', ';', 'c'] = some .blank ∧
    readLine ['F', 'W', 'D', ' ', '1', ' ', '2'] = none ∧ readLine ['N', 'O', 'P', ' ', '1'] = none := by decide
theorem test_assemble :
    assemble (.decText 'x' '<' '[' '0' '#') = some 0x1783C5B3023#42 ∧ assemble (.fwd 128) = none := by decide
theorem test_writeAnswer :
    writeAnswer (.error (.invalidCharacter 4 0x20)) =
      ['I', 'n', 'v', 'a', 'l', 'i', 'd', 'C', 'h', 'a', 'r', 'a', 'c', 't', 'e', 'r', '(', 'p', 'o', 's', ' ', '4', ',',
        ' ', 'v', 'a', 'l', 'u', 'e', ' ', '0', 'x', '2', '0', ')'] := by decide

/-! ## Witnesses: states and operands that meet the hypotheses of the statements -/

/-- Digits of the largest value that fits, of the smallest that does not, and of the largest of all (V-D5 to V-D7). -/
def largestFitting : Chunk Digit := ⟨82, 23, 54, 12, 0⟩
def smallestOverflowing : Chunk Digit := ⟨82, 23, 54, 12, 1⟩
def largestOfAll : Chunk Digit := ⟨84, 84, 84, 84, 84⟩

theorem witness_StepRunsDecodedRequest :
    (demo [0x20000000055#42]).pending = [0x20000000055#42] ∧ decode 0x20000000055#42 = .ok (.fwd 85) := by decide
theorem witness_TableWordRunsNext : decodeTableWord 48 0x3000000007A = some (.rev 0x7A) := by decide
theorem witness_IdleStepChangesNothing : State.reset.pending = [] := by decide
theorem witness_ReservedBitsAnswerIllegalRequest_enc :
    (demo [0x00100000000#42]).pending = [0x00100000000#42] ∧
    (0x00100000000#42).toNat / 2 ^ 40 = 0 ∧ (0x00100000000#42).toNat % 2 ^ 40 / 2 ^ 32 ≠ 0 := by decide
theorem witness_ReservedBitsAnswerIllegalRequest_fwd :
    (demo [0x20000000080#42]).pending = [0x20000000080#42] ∧
    (0x20000000080#42).toNat / 2 ^ 40 = 2 ∧ (0x20000000080#42).toNat % 2 ^ 40 / 2 ^ 7 ≠ 0 := by decide
theorem witness_ReservedBitsAnswerIllegalRequest_rev :
    (demo [0x30000000100#42]).pending = [0x30000000100#42] ∧
    (0x30000000100#42).toNat / 2 ^ 40 = 3 ∧ (0x30000000100#42).toNat % 2 ^ 40 / 2 ^ 8 ≠ 0 := by decide
theorem witness_ReservedBitsAnswerIllegalRequest_dec : (0x1FFFFFFFFFF#42).toNat / 2 ^ 40 = 1 := by decide
theorem witness_EncodeOfDecode : decode 0x12121212123#42 = .ok (.dec 0x21 0x21 0x21 0x21 0x23) := by decide
theorem witness_TableRowsDecideDecoding :
    (⟨"FWD", 0x20000000000#42, 0x3FFFFFFFF80#42⟩ : TableRow) ∈ opcodeTable ∧
    TableRow.selects ⟨"FWD", 0x20000000000#42, 0x3FFFFFFFF80#42⟩ 0x2000000007F#42 = true ∧
    ∀ row ∈ opcodeTable, row.selects 0x20000000080#42 = false := by decide
theorem witness_DecAnswersGroupValue : (demo []).config.Legal ∧ largestFitting.value < 2 ^ 32 :=
  ⟨test_defaultConfig_legal, by decide⟩
theorem witness_DecAnswersOverflowByMode_strict :
    (demo []).config.Legal ∧ 2 ^ 32 ≤ smallestOverflowing.value ∧ (demo []).config.strictOverflow = true :=
  ⟨test_defaultConfig_legal, by decide, rfl⟩
theorem witness_DecAnswersOverflowByMode_wrap :
    wrapConfig.Legal ∧ 2 ^ 32 ≤ largestOfAll.value ∧ wrapConfig.strictOverflow = false :=
  ⟨test_wrapConfig_legal, by decide, rfl⟩
/-- `"zzzz "`: position 4, with an overflowing prefix (V-D17). -/
theorem witness_DecAnswersFirstInvalidCharacter :
    (Chunk.mk 0x7A 0x7A 0x7A 0x7A 0x20 : Chunk Byte).toList[4]? = some 0x20 ∧
    (∀ d : Digit, (demo []).config.digitToChar d ≠ 0x20) ∧
    ∀ (j : Nat) (x : Byte), j < 4 → (Chunk.mk 0x7A 0x7A 0x7A 0x7A 0x20 : Chunk Byte).toList[j]? = some x →
      ∃ d : Digit, (demo []).config.digitToChar d = x := by
  refine ⟨rfl, by decide, fun j x hj hx => ⟨84, ?_⟩⟩
  have h84 : (demo []).config.digitToChar 84 = 0x7A := by decide
  rw [h84]
  interval_cases j <;> simpa [Chunk.toList] using hx
theorem witness_DecOverflowsExactlyWhenStrict : (demo []).config.Legal := test_defaultConfig_legal
theorem witness_FwdAnswersCharacterOrDigitRange :
    (84#7).toNat < 85 ∧ 7 ≤ (demo []).config.fwdAddrBits ∧ 85 ≤ (85#7).toNat := by decide
theorem witness_RevAnswersTableWord :
    (demo []).config.Legal ∧ 9 ≤ (demo []).config.revWordBits ∧ ∀ d : Digit, (demo []).config.digitToChar d ≠ 0x5C :=
  ⟨test_defaultConfig_legal, by decide, by decide⟩
theorem witness_FwdRequestAnswered :
    7 ≤ (demo [0x20000000054#42]).config.fwdAddrBits ∧
    (demo [0x20000000054#42]).pending = [BitVec.ofNat 42 (2 * 2 ^ 40 + 84)] ∧
    (demo [0x20000000055#42]).pending = [BitVec.ofNat 42 (2 * 2 ^ 40 + 85)] ∧
    (demo [0x2000000007F#42]).pending = [BitVec.ofNat 42 (2 * 2 ^ 40 + 127)] ∧
    (demo [0x20000000080#42]).pending = [BitVec.ofNat 42 (2 * 2 ^ 40 + 128)] := by decide
theorem witness_RevRequestAnswered :
    (demo []).config.Legal ∧
    (demo [0x3000000007A#42]).pending = [BitVec.ofNat 42 (3 * 2 ^ 40 + 0x7A)] ∧
    0x7A = ((demo []).config.digitToChar 84).toNat ∧
    (demo [0x300000000FF#42]).pending = [BitVec.ofNat 42 (3 * 2 ^ 40 + 255)] ∧
    (∀ d : Digit, 255 ≠ ((demo []).config.digitToChar d).toNat) ∧
    (demo [0x30000000100#42]).pending = [BitVec.ofNat 42 (3 * 2 ^ 40 + 256)] :=
  ⟨test_defaultConfig_legal, by decide, by decide, by decide, by decide, by decide⟩
theorem witness_WiderRomsAnswerTheSame :
    85 ≤ (85#7 : defaultConfig.FwdAddr).toNat ∧ 7 ≤ defaultConfig.fwdAddrBits ∧ 9 ≤ defaultConfig.revWordBits ∧
    (demo []).config = defaultConfig ∧ (⟨wideConfig, [], [], []⟩ : State).config =
      { defaultConfig with fwdAddrBits := 8, revWordBits := 16 } := by decide
theorem witness_ExecGivesOneResponseFromParameters : (demo [1#42]).config = defaultConfig := rfl
theorem witness_EveryRequestAnsweredOnce : (demo [0x3FFFFFFFFFF#42]).pending = [0x3FFFFFFFFFF#42] := rfl
theorem witness_ParametersNeverChange : (runSteps 1 (demo [0x20000000055#42])).isSome = true := by decide
theorem witness_RequestOrderUnobservable :
    [0x20000000000#42, 0x3000000007A#42].Perm [0x3000000007A#42, 0x20000000000#42] ∧
    (runSteps 2 ⟨defaultConfig, [0x20000000000#42, 0x3000000007A#42], [], []⟩).isSome = true ∧
    (runSteps 2 ⟨defaultConfig, [0x3000000007A#42, 0x20000000000#42], [], []⟩).isSome = true := by decide

/-- A log of one answered request, with another one pending. -/
def logged : State := ⟨defaultConfig, [0x20000000055#42], [0x30000000020#42], [0x100#54]⟩

theorem witness_StepKeepsLogCoherent : LogCoherent logged ∧ ∃ t, step logged = .next t :=
  ⟨.cons ⟨_, rfl, by decide⟩ .nil, _, rfl⟩
theorem witness_StepKeepsLogShaped : LogShaped logged ∧ ∃ t, step logged = .next t := by
  refine ⟨fun w hw => ?_, _, rfl⟩
  obtain rfl : w = 0x100#54 := by simpa [logged] using hw
  exact ⟨⟨by decide, by decide, by decide, by decide⟩, by decide⟩
theorem witness_ResponseWordsRoundTrip :
    parseResponse 0x14200000000000#54 = some (.error (.invalidCharacter 4 0x20)) := by decide
theorem witness_ForwardRomRead :
    7 ≤ defaultConfig.fwdAddrBits ∧ 85 ≤ (85#7 : defaultConfig.FwdAddr).toNat ∧
    85 ≤ (127#7 : defaultConfig.FwdAddr).toNat ∧ (127#7 : defaultConfig.FwdAddr).toNat ≤ 127 := by decide
theorem witness_ReverseRomRead :
    defaultConfig.Legal ∧ defaultConfig.digitToChar 84 = 0x7A ∧ (revRom defaultConfig 0x7A).getLsbD 8 = false ∧
    (∀ d : Digit, defaultConfig.digitToChar d ≠ 0x7B) :=
  ⟨test_defaultConfig_legal, by decide, by decide, by decide⟩
theorem witness_TablesAreInverse : defaultConfig.Legal ∧ isSymbol 0x60 = true :=
  ⟨test_defaultConfig_legal, by decide⟩
theorem witness_DefaultTables :
    (12 ≤ (21 : Digit).val ∧ (21 : Digit).val ≤ 21) ∧ (28 ≤ (53 : Digit).val ∧ (53 : Digit).val ≤ 53) ∧
    59 ≤ (84 : Digit).val := by decide
theorem witness_EncDigitsSpellValue :
    (0xFFFFFFFF#32).toNat = 82 * 85 ^ 4 + (23 : Digit).val * 85 ^ 3 + (54 : Digit).val * 85 ^ 2 + (12 : Digit).val * 85 +
      (0 : Digit).val := by decide
theorem witness_LeadingDigitAtMost82 : defaultConfig.Legal := test_defaultConfig_legal
theorem witness_EncoderImageIsCanonicalGroups :
    defaultConfig.Legal ∧ 0x78 ∈ (encGroup defaultConfig 0xFFFFFFFF).toList := ⟨test_defaultConfig_legal, by decide⟩
theorem witness_AccumulatorLosesNothing :
    33 ≤ defaultConfig.accBits ∧ (largestOfAll.map defaultConfig.digitToChar).indexed.length ≤ 5 ∧
    decFold defaultConfig (largestOfAll.map defaultConfig.digitToChar).indexed 0 = .ok 4437053124 ∧ 33 ≤ 64 := by decide
theorem witness_WrapModeIsStepwiseWrap :
    wrapConfig.Legal ∧ wrapConfig.strictOverflow = false ∧ 2 ^ 32 ≤ smallestOverflowing.value :=
  ⟨test_wrapConfig_legal, rfl, by decide⟩
theorem witness_GroupRoundTrips :
    (defaultConfig.Legal ∧ largestFitting.value < 2 ^ 32 ∧ 2 ^ 32 ≤ smallestOverflowing.value ∧
      defaultConfig.strictOverflow = true) ∧ wrapConfig.Legal ∧ wrapConfig.strictOverflow = false :=
  ⟨⟨test_defaultConfig_legal, by decide, by decide, rfl⟩, test_wrapConfig_legal, rfl⟩
theorem witness_EncResultDecodesBack :
    (demo [0x000DEADBEEF#42]).config.Legal ∧ (demo [0x000DEADBEEF#42]).pending = [encode (.enc 0xDEADBEEF)] :=
  ⟨test_defaultConfig_legal, by decide⟩
theorem witness_InvalidLengthExactly : [1#8].length % 4 ≠ 0 ∧ [0x21#8].length % 5 ≠ 0 := by decide
theorem witness_EncodeCallGroupByGroup :
    [1#8, 2, 3, 4, 5, 6, 7, 8].length % 4 = 0 ∧ [1#8, 2, 3, 4, 5, 6, 7, 8][4 * 1]? = some 5 ∧
    [1#8, 2, 3, 4, 5, 6, 7, 8][4 * 1 + 1]? = some 6 ∧ [1#8, 2, 3, 4, 5, 6, 7, 8][4 * 1 + 2]? = some 7 ∧
    [1#8, 2, 3, 4, 5, 6, 7, 8][4 * 1 + 3]? = some 8 := by decide
theorem witness_DecodeCallGroupByGroup :
    decodeCall defaultConfig [0x21, 0x21, 0x21, 0x21, 0x23] = .ok [0, 0, 0, 1] ∧
    (([0x21, 0x21, 0x21, 0x21, 0x23] : List Byte).drop (5 * 0)).take 5 =
      (Chunk.mk 0x21 0x21 0x21 0x21 0x23 : Chunk Byte).toList := by decide
theorem witness_CallLengthLaw :
    encodeCall defaultConfig [0, 0, 0, 1] = .ok [0x21, 0x21, 0x21, 0x21, 0x23] ∧
    decodeCall defaultConfig [0x21, 0x21, 0x21, 0x21, 0x23] = .ok [0, 0, 0, 1] := by decide
theorem witness_DecodeCallReportsFirstFailure :
    defaultConfig.Legal ∧
    decodeCall defaultConfig (units ['!', '!', '!', '!', '!', '!', '!', '!', '!', ',']) =
      .error (.invalidCharacter 9 0x2C) ∧
    decodeCall defaultConfig (units ['<', ':', 'h', 'Y', 'V', 'x', '<', '[', '0', '#']) = .error (.numericOverflow 1) :=
  ⟨test_defaultConfig_legal, by decide, by decide⟩
theorem witness_DecodeCallRejectsNonAlphabet :
    wrapConfig.Legal ∧ (units ['!', '!', '"', '!', '!']).length % 5 = 0 ∧ 0x22 ∈ units ['!', '!', '"', '!', '!'] ∧
    isSymbol 0x22 = false ∧ wrapConfig.strictOverflow = false :=
  ⟨test_wrapConfig_legal, by decide, by decide, by decide, rfl⟩
theorem witness_BufferRoundTrip : defaultConfig.Legal ∧ [0xDE#8, 0xAD, 0xBE, 0xEF].length % 4 = 0 :=
  ⟨test_defaultConfig_legal, by decide⟩
theorem witness_TextRoundTripExactlyCanonical :
    defaultConfig.Legal ∧ decodeCall defaultConfig (units ['x', '<', '[', '0', '!']) = .ok [0xFF, 0xFF, 0xFF, 0xFF] ∧
    decodeCall wrapConfig (units ['x', '<', '[', '0', '#']) = .ok [0, 0, 0, 0] :=
  ⟨test_defaultConfig_legal, by decide, by decide⟩
theorem witness_EncodeCallIsRunOfRequests :
    (demo []).pending = [] ∧ expandEncode (([0, 0, 0, 1] : List Byte).map BitVec.toNat) = some [.enc 1] := by decide
theorem witness_DecodeCallIsRunOfRequests :
    (demo []).pending = [] ∧ (units ['!', '!', '!', '!', '#']).length % 5 = 0 ∧
    decodeCall (demo []).config (units ['!', '!', '!', '!', '#']) = .ok [0, 0, 0, 1] ∧
    decodeCall (demo []).config (units ['!', '!', '!', '!', ' ']) = .error (.invalidCharacter 4 0x20) := by decide

end Sys2Proof.Tests
end

section
/-! PROOFS. 30_encoding: request words with reserved operand bits. -/

namespace Sys2Proof.Machine

/-- `op` and a reserved operand bit of it that is not zero (30_encoding R48). -/
def HasReservedBits (r : Request) : Prop :=
  (r.toNat / 2 ^ 40 = 0 ∧ r.toNat % 2 ^ 40 / 2 ^ 32 ≠ 0) ∨ (r.toNat / 2 ^ 40 = 2 ∧ r.toNat % 2 ^ 40 / 2 ^ 7 ≠ 0) ∨
    (r.toNat / 2 ^ 40 = 3 ∧ r.toNat % 2 ^ 40 / 2 ^ 8 ≠ 0)

/-- The decoder rejects every word with a reserved operand bit set. -/
theorem decode_error_of_hasReservedBits {r : Request} (h : HasReservedBits r) : ∃ e : Reject, decode r = .error e := by
  obtain ⟨hop, hres⟩ | ⟨hop, hres⟩ | ⟨hop, hres⟩ := h
  · exact ⟨.encReserved, by rw [decode_enc hop, if_pos hres]⟩
  · exact ⟨.fwdReserved, by rw [decode_fwd hop, if_pos hres]⟩
  · exact ⟨.revReserved, by rw [decode_rev hop, if_pos hres]⟩

/-- The word of IllegalRequest: status 5 and zeros (30_encoding R48). -/
theorem packAnswer_illegalRequest : packAnswer (.error .illegalRequest) = BitVec.ofNat 54 (5 * 2 ^ 51) := by
  decide

/-- The answer to a rejected word does not depend on the parameters. -/
theorem answerOfRequest_of_decode_error (cfg : Config) {r : Request} {e : Reject} (h : decode r = .error e) :
    answerOfRequest cfg r = .error .illegalRequest := by
  rw [answerOfRequest, h]

/-- A step with a request presented, as the answer to that request. -/
theorem step_of_pending_cons {s : State} {r : Request} {rest : List Request} (h : s.pending = r :: rest) :
    step s = .next ⟨s.config, rest, s.answered ++ [r], s.responses ++ [packAnswer (answerOfRequest s.config r)]⟩ := by
  obtain ⟨hnil, -⟩ | ⟨r', rest', hcons, hstep⟩ := step_cases s
  · simp [h] at hnil
  · obtain ⟨rfl, rfl⟩ := List.cons.inj (h.symm.trans hcons)
    exact hstep

/-- Settles O5: the decoder rejects the word for each of the three operations with reserved bits, and a rejected word is
answered without the parameters; a word with `op` = 1 is split into its five characters. -/
theorem reservedBitsAnswerIllegalRequest : Obligations.ReservedBitsAnswerIllegalRequest := by
  constructor
  · intro s r rest hpending hreserved
    obtain ⟨e, he⟩ := decode_error_of_hasReservedBits hreserved
    rw [step_of_pending_cons hpending, answerOfRequest_of_decode_error s.config he, packAnswer_illegalRequest]
  · intro r hop
    exact ⟨_, _, _, _, _, decode_dec hop⟩

end Sys2Proof.Machine
end

section
/-! PROOFS. 40_alphabet_roms: what the forward ROM and the reverse ROM hold, and that they are inverse to each other. -/

namespace Sys2Proof.Machine

/-- A number below `2^k` is an address or a word of `k` bits or more, unchanged. -/
theorem toNat_ofNat_of_wide {k bits n : Nat} (hw : k ≤ bits) (hn : n < 2 ^ k) : (BitVec.ofNat bits n).toNat = n := by
  have hp : 2 ^ k ≤ 2 ^ bits := Nat.pow_le_pow_right (by decide) hw
  rw [BitVec.toNat_ofNat, Nat.mod_eq_of_lt (by omega)]

/-- The members of a group after one function has been applied to each. -/
theorem chunk_toList_map {α β : Type} (f : α → β) (g : Chunk α) : (g.map f).toList = g.toList.map f := rfl

/-- A character has 8 bits, so no word that carries one is the marker (R65). -/
theorem setWidth_char_ne_marker {bits : Nat} (hw : 9 ≤ bits) (c : Byte) : c.setWidth bits ≠ BitVec.ofNat bits 256 := by
  intro heq
  have hc := c.isLt
  have hn := congrArg BitVec.toNat heq
  rw [← BitVec.ofNat_toNat, toNat_ofNat_of_wide hw (by omega), toNat_ofNat_of_wide hw (by decide)] at hn
  omega

section
variable (cfg : Config)

/-- The forward ROM holds `ALPHABET(d)` at the address of the digit `d` (R62). -/
theorem fwdRom_digit (hw : 7 ≤ cfg.fwdAddrBits) (d : Digit) :
    fwdRom cfg (BitVec.ofNat cfg.fwdAddrBits d.val) = .ok (cfg.digitToChar d) := by
  have haddr := toNat_ofNat_of_wide hw (show d.val < 2 ^ 7 by omega)
  obtain ⟨h, hread⟩ | ⟨h, -⟩ := fwdRom_cases cfg (BitVec.ofNat cfg.fwdAddrBits d.val)
  · simpa only [haddr] using hread
  · omega

/-- The forward ROM holds nothing from address 85 on (R62). -/
theorem fwdRom_empty {a : cfg.FwdAddr} (h : 85 ≤ a.toNat) : fwdRom cfg a = .error .digitRange := by
  obtain ⟨hlt, -⟩ | ⟨-, hread⟩ := fwdRom_cases cfg a
  · omega
  · exact hread

/-- The number of a reverse entry is 256 for a character that has no digit, and that digit otherwise. -/
theorem revNumber_cases (c : Byte) :
    (charToDigit cfg c = none ∧ revNumber cfg c = 256) ∨
    ∃ d : Digit, charToDigit cfg c = some d ∧ revNumber cfg c = d.val := by
  cases h : charToDigit cfg c with
  | none => exact .inl ⟨rfl, by simp [revNumber, h]⟩
  | some d => exact .inr ⟨d, rfl, by simp [revNumber, h]⟩

/-- A reverse entry is the marker exactly when its character has no digit. -/
theorem revNumber_eq_256_iff {c : Byte} : revNumber cfg c = 256 ↔ charToDigit cfg c = none := by
  obtain ⟨hnone, hn⟩ | ⟨d, hsome, hn⟩ := revNumber_cases cfg c
  · simp [hnone, hn]
  · have := d.isLt
    simp only [hsome, reduceCtorEq, iff_false]
    omega

/-- The word of a reverse entry is the marker exactly when its number is (R64). -/
theorem revRom_eq_marker_iff (hw : 9 ≤ cfg.revWordBits) {c : Byte} :
    revRom cfg c = BitVec.ofNat cfg.revWordBits 256 ↔ revNumber cfg c = 256 := by
  rw [← BitVec.toNat_inj, revRom_toNat cfg hw, toNat_ofNat_of_wide hw (by decide)]

/-- Bit 8 tells the marker from the digits (R64). -/
theorem revRom_bit8_iff (hw : 9 ≤ cfg.revWordBits) {c : Byte} :
    (revRom cfg c).getLsbD 8 = true ↔ revNumber cfg c = 256 := by
  rw [← BitVec.testBit_toNat, revRom_toNat cfg hw]
  obtain ⟨-, hn⟩ | ⟨d, -, hn⟩ := revNumber_cases cfg c
  · rw [hn]
    decide
  · have := d.isLt
    rw [Nat.testBit_lt_two_pow (by omega)]
    simp only [Bool.false_eq_true, false_iff]
    omega

end

section
variable {cfg : Config}

/-- In a legal alphabet the reverse lookup finds the digit of a character and no other. -/
theorem charToDigit_eq_some_iff (hL : cfg.Legal) {c : Byte} {d : Digit} :
    charToDigit cfg c = some d ↔ cfg.digitToChar d = c := by
  refine ⟨digitToChar_of_charToDigit cfg, fun hd => ?_⟩
  obtain ⟨-, hno⟩ | ⟨e, he, hec⟩ := charToDigit_cases cfg c
  · exact absurd hd (hno d)
  · rw [he, hL.injective d e (hd.trans hec.symm)]

/-- The reverse entry of an alphabet character is its digit (R63). -/
theorem revNumber_digitToChar (hL : cfg.Legal) (d : Digit) : revNumber cfg (cfg.digitToChar d) = d.val := by
  simp [revNumber, (charToDigit_eq_some_iff hL).2 rfl]

/-- The characters without a reverse entry are those outside the set of R60. -/
theorem charToDigit_ne_none_iff (hL : cfg.Legal) {c : Byte} : charToDigit cfg c ≠ none ↔ isSymbol c = true := by
  rw [← hL.range c, ne_eq, charToDigit_eq_none_iff]
  simp

/-- The reverse table maps the set of R60 one to one onto the digits (R65). -/
theorem revRom_bijOn (hL : cfg.Legal) :
    Set.BijOn (fun c : Byte => (revRom cfg c).toNat) {c : Byte | isSymbol c = true} (Set.Iio 85) := by
  have hread (d : Digit) : (revRom cfg (cfg.digitToChar d)).toNat = d.val :=
    (revRom_toNat cfg hL.revWordBits _).trans (revNumber_digitToChar hL d)
  refine ⟨fun c hc => ?mapsTo, fun c hc c' hc' heq => ?injOn, fun n hn => ?surjOn⟩
  case mapsTo =>
    obtain ⟨d, rfl⟩ := (hL.range c).2 hc
    exact (hread d).trans_lt d.isLt
  case injOn =>
    obtain ⟨d, rfl⟩ := (hL.range c).2 hc
    obtain ⟨e, rfl⟩ := (hL.range c').2 hc'
    exact congrArg cfg.digitToChar (Fin.ext ((hread d).symm.trans (heq.trans (hread e))))
  case surjOn => exact ⟨cfg.digitToChar ⟨n, hn⟩, (hL.range _).1 ⟨_, rfl⟩, hread ⟨n, hn⟩⟩

end

/-- Every digit of the default table is found again by its character. -/
theorem charToDigit_default_digitToChar :
    ∀ d : Digit, charToDigit defaultConfig (defaultConfig.digitToChar d) = some d := by
  decide

/-- Every character of the default table is in the set of R60. -/
theorem isSymbol_default_digitToChar : ∀ d : Digit, isSymbol (defaultConfig.digitToChar d) = true := by
  decide

/-- The default reverse lookup finds a digit for every character of the set of R60. -/
theorem charToDigit_default_isSome_of_isSymbol :
    ∀ c : Byte, isSymbol c = true → (charToDigit defaultConfig c).isSome = true := by
  decide

/-- The default parameters meet the constraints of 00_scope R6: the default reverse lookup is a left inverse of the default
table, hence it is injective, and it finds a digit for exactly the set of R60. -/
theorem defaultConfig_legal : defaultConfig.Legal where
  range c := by
    refine ⟨?_, fun hc => ?_⟩
    · rintro ⟨d, rfl⟩
      exact isSymbol_default_digitToChar d
    · obtain ⟨d, hd⟩ := Option.isSome_iff_exists.1 (charToDigit_default_isSome_of_isSymbol c hc)
      exact ⟨d, digitToChar_of_charToDigit defaultConfig hd⟩
  injective d e h := by
    have hd := charToDigit_default_digitToChar d
    rw [h, charToDigit_default_digitToChar e] at hd
    exact (Option.some.inj hd).symm
  zero := by decide
  one := by decide
  accBits := le_rfl
  revWordBits := le_rfl
  fwdAddrBits := le_rfl

/-- Settles O29: an address below 85 is the address of a digit, and the encoder reads at digits only. -/
theorem forwardRomRead : Obligations.ForwardRomRead := by
  intro cfg hw
  refine ⟨fwdRom_digit cfg hw, fun a hlow _ => fwdRom_empty cfg hlow, fun w => ?_⟩
  simp only [encGroup, chunk_toList_map, List.map_map, fwdRom_digit cfg hw, Function.comp_def]

/-- Settles O30: a reverse entry is a digit below 85 or 256, and bit 8 is set in 256 alone. -/
theorem reverseRomRead : Obligations.ReverseRomRead := by
  intro cfg c hL
  have hw := hL.revWordBits
  refine ⟨fun d hd => ?digit, fun hno => ?marker, ?bit8, fun hclear => ?value⟩
  case digit => rw [← hd, revRom_eq_ofNat, revNumber_digitToChar hL]
  case marker => exact (revRom_eq_marker_iff cfg hw).2 ((revNumber_eq_256_iff cfg).2 ((charToDigit_eq_none_iff cfg).2 hno))
  case bit8 => rw [revRom_eq_marker_iff cfg hw, revRom_bit8_iff cfg hw]
  case value =>
    refine ⟨?_, revRom_toNat cfg hw c⟩
    have hne : revNumber cfg c ≠ 256 := fun h => by simp [(revRom_bit8_iff cfg hw).2 h] at hclear
    obtain ⟨-, hn⟩ | ⟨d, -, hn⟩ := revNumber_cases cfg c
    · exact absurd hn hne
    · rw [revRom_toNat cfg hw]
      omega

/-- Settles O31: in a legal alphabet the reverse lookup is the inverse of `ALPHABET`, and the reverse ROM is its image. -/
theorem tablesAreInverse : Obligations.TablesAreInverse := by
  refine ⟨defaultConfig_legal, fun cfg hL => ⟨fun c hc => ?forward, fun d => (charToDigit_eq_some_iff hL).2 rfl,
    hL.injective, fun c => ?marker, revRom_bijOn hL, fun d => setWidth_char_ne_marker hL.revWordBits _⟩⟩
  case forward =>
    obtain ⟨d, hd⟩ := (hL.range c).2 hc
    exact ⟨d, (charToDigit_eq_some_iff hL).2 hd, hd⟩
  case marker =>
    rw [ne_eq, revRom_eq_marker_iff cfg hL.revWordBits, revNumber_eq_256_iff]
    exact charToDigit_ne_none_iff hL

end Sys2Proof.Machine
end

section
/-! PROOFS. 42_decoder: what `DecGroup` gives for five alphabet characters, and its round trips with `EncGroup`. -/

namespace Sys2Proof.Machine

/-- Five digits are determined by the number they spell. -/
theorem chunk_value_injective : Function.Injective Chunk.value := by
  rintro ⟨⟨a0, _⟩, ⟨a1, _⟩, ⟨a2, _⟩, ⟨a3, _⟩, ⟨a4, _⟩⟩ ⟨⟨b0, _⟩, ⟨b1, _⟩, ⟨b2, _⟩, ⟨b3, _⟩, ⟨b4, _⟩⟩ h
  simp only [Chunk.value] at h
  simp only [Chunk.mk.injEq, Fin.mk.injEq]
  omega

/-- Applying an injective function to all members of a group is injective. -/
theorem chunk_map_injective {α β : Type} {f : α → β} (hf : Function.Injective f) :
    Function.Injective (Chunk.map f) := by
  rintro ⟨a0, a1, a2, a3, a4⟩ ⟨b0, b1, b2, b3, b4⟩ h
  simpa only [Chunk.map, Chunk.mk.injEq, hf.eq_iff] using h

/-- Five digits spell a number below `P5` = 85^5, which is below 2 × 2^32 (R82). -/
theorem chunk_value_lt (g : Chunk Digit) : g.value < 85 ^ 5 := by
  obtain ⟨⟨a0, _⟩, ⟨a1, _⟩, ⟨a2, _⟩, ⟨a3, _⟩, ⟨a4, _⟩⟩ := g
  simp only [Chunk.value]
  omega

/-- The digits of a group value spell it (41_encoder R75). -/
theorem encDigits_value (w : GroupWord) : (encDigits w).value = w.toNat := by
  simp only [encDigits, Chunk.value, leadingDigit, modDigit, place4, place3, place2, place1]
  omega

section
variable {cfg : Config}

/-- In a legal alphabet the encoder's output is the group of five given digits exactly when they spell the value encoded. -/
theorem encGroup_eq_map_iff (hL : cfg.Legal) {w : GroupWord} {g : Chunk Digit} :
    encGroup cfg w = g.map cfg.digitToChar ↔ w.toNat = g.value := by
  rw [encGroup, (chunk_map_injective hL.injective).eq_iff, ← chunk_value_injective.eq_iff, encDigits_value]

/-- The fold over five alphabet characters gives the number their digits spell (R81, R86). -/
theorem decFold_digits (hL : cfg.Legal) (g : Chunk Digit) :
    decFold cfg (g.map cfg.digitToChar).indexed 0 = .ok g.value := by
  have hdigit (d : Digit) : charToDigit cfg (cfg.digitToChar d) = some d := (charToDigit_eq_some_iff hL).2 rfl
  have hacc := hL.accBits
  obtain ⟨d0, d1, d2, d3, d4⟩ := g
  simp only [Chunk.indexed, Chunk.map, decFold_cons_valid cfg (hdigit _), decFold_nil, Chunk.value, Except.ok.injEq]
  rw [mulAcc_exact cfg d0 hacc (by omega), mulAcc_exact cfg d1 hacc (by omega), mulAcc_exact cfg d2 hacc (by omega),
    mulAcc_exact cfg d3 hacc (by omega), mulAcc_exact cfg d4 hacc (by omega)]
  ring

/-- `DecGroup` of five alphabet characters is the overflow test of the number their digits spell. -/
theorem decGroup_digits (hL : cfg.Legal) (g : Chunk Digit) :
    decGroup cfg (g.map cfg.digitToChar) = narrowAcc cfg g.value :=
  decGroup_of_decFold_ok cfg (decFold_digits hL g)

/-- A number that fits a group value passes the overflow test in both modes. -/
theorem narrowAcc_of_lt (cfg : Config) {acc : Nat} (h : acc < 2 ^ 32) :
    narrowAcc cfg acc = .ok (BitVec.ofNat 32 acc) := by
  obtain ⟨hge, -⟩ | ⟨-, hok⟩ := narrowAcc_cases cfg acc
  · omega
  · exact hok

/-- Strict mode rejects a number of 2^32 or more. -/
theorem narrowAcc_of_strict {acc : Nat} (hs : cfg.strictOverflow = true) (h : 2 ^ 32 ≤ acc) :
    narrowAcc cfg acc = .error .numericOverflow := by
  obtain ⟨-, -, herr⟩ | ⟨hno, -⟩ := narrowAcc_cases cfg acc
  · exact herr
  · exact absurd ⟨h, hs⟩ hno

/-- Wrap mode rejects no number. -/
theorem narrowAcc_of_wrap {acc : Nat} (hs : cfg.strictOverflow = false) :
    narrowAcc cfg acc = .ok (BitVec.ofNat 32 acc) := by
  obtain ⟨-, hstrict, -⟩ | ⟨-, hok⟩ := narrowAcc_cases cfg acc
  · simp [hs] at hstrict
  · exact hok

/-- Decoding an encoded value gives it back, in both modes (R88 (a)). -/
theorem decGroup_encGroup (hL : cfg.Legal) (w : GroupWord) : decGroup cfg (encGroup cfg w) = .ok w := by
  rw [encGroup, decGroup_digits hL, encDigits_value, narrowAcc_of_lt cfg w.isLt, BitVec.ofNat_toNat, BitVec.setWidth_eq]

end

/-- The group value of an overflowing group in wrap mode is the number less 2^32: it is below 2 × 2^32 (R82). -/
theorem toNat_ofNat_value_of_overflow {g : Chunk Digit} (h : 2 ^ 32 ≤ g.value) :
    (BitVec.ofNat 32 g.value).toNat = g.value - 2 ^ 32 := by
  have := chunk_value_lt g
  rw [BitVec.toNat_ofNat]
  omega

/-- Settles O39: `DecGroup` of five alphabet characters narrows the number they spell, and `EncGroup` gives those
characters back exactly when that number is the group value, which the value of an overflowing group is not. -/
theorem groupRoundTrips : Obligations.GroupRoundTrips := by
  intro cfg hL
  refine ⟨decGroup_encGroup hL, fun g hlt => ⟨BitVec.ofNat 32 g.value, ?fits, ?reencodes⟩, fun g hge hs => ?strict,
    fun g hge hs => ⟨BitVec.ofNat 32 g.value, ?wraps, toNat_ofNat_value_of_overflow hge, ?differs⟩⟩
  case fits => rw [decGroup_digits hL, narrowAcc_of_lt cfg hlt]
  case reencodes => rw [encGroup_eq_map_iff hL, BitVec.toNat_ofNat, Nat.mod_eq_of_lt hlt]
  case strict => rw [decGroup_digits hL, narrowAcc_of_strict hs hge]
  case wraps => rw [decGroup_digits hL, narrowAcc_of_wrap hs]
  case differs =>
    rw [ne_eq, encGroup_eq_map_iff hL, toNat_ofNat_value_of_overflow hge]
    omega

end Sys2Proof.Machine
end

section
/-! PROOFS. 43_buffer_calls: the length test of the calls and of the sequencer, and how long the results are. -/

namespace Sys2Proof.Machine

section
variable (cfg : Config)

/-- A buffer of uneven length is not encoded (R92). -/
theorem encodeCall_of_uneven {b : List Byte} (h : b.length % 4 ≠ 0) : encodeCall cfg b = .error .invalidLength :=
  if_pos h

/-- A buffer of even length always encodes (R93). -/
theorem encodeCall_of_even {b : List Byte} (h : b.length % 4 = 0) : encodeCall cfg b = .ok (encodeGroups cfg b) :=
  if_neg (not_not.2 h)

/-- A text of uneven length is not decoded (R92). -/
theorem decodeCall_of_uneven {t : List Byte} (h : t.length % 5 ≠ 0) : decodeCall cfg t = .error .invalidLength :=
  if_pos h

/-- A text of even length is decoded group by group (R94). -/
theorem decodeCall_of_even {t : List Byte} (h : t.length % 5 = 0) : decodeCall cfg t = decodeGroups cfg 0 t :=
  if_neg (not_not.2 h)

/-- Each whole group of four bytes gives five characters (R93). -/
theorem length_encodeGroups : ∀ b : List Byte, (encodeGroups cfg b).length = 5 * (b.length / 4)
  | b0 :: b1 :: b2 :: b3 :: rest => by
    have ih := length_encodeGroups rest
    simp only [encodeGroups_cons, Chunk.toList, List.length_append, List.length_cons, List.length_nil]
    omega
  | [] | [_] | [_, _] | [_, _, _] => by simp [encodeGroups]

/-- The groups of a text fail with the error of one group, or give four bytes for each whole group of five characters
(R94, R95). -/
theorem decodeGroups_cases : ∀ (g : Nat) (t : List Byte),
    (∃ (k : Nat) (e : DecError), decodeGroups cfg g t = .error (callError k e)) ∨
    ∃ out : List Byte, decodeGroups cfg g t = .ok out ∧ out.length = 4 * (t.length / 5)
  | g, c0 :: c1 :: c2 :: c3 :: c4 :: rest => by
    cases hgroup : decGroup cfg ⟨c0, c1, c2, c3, c4⟩ with
    | error e => exact .inl ⟨g, e, decodeGroups_cons_error cfg hgroup⟩
    | ok w =>
      rw [decodeGroups_cons_ok cfg hgroup]
      obtain ⟨k, e, herr⟩ | ⟨out, hok, hlen⟩ := decodeGroups_cases (g + 1) rest
      · exact .inl ⟨k, e, by rw [herr]⟩
      · refine .inr ⟨bytesOfWord w ++ out, by rw [hok], ?_⟩
        simp only [bytesOfWord, List.length_append, List.length_cons, List.length_nil]
        omega
  | _, [] | _, [_] | _, [_, _] | _, [_, _, _] | _, [_, _, _, _] => .inr ⟨[], rfl, by simp⟩

/-- Past the length test no group raises the length error (R95). -/
theorem decodeGroups_ne_invalidLength (g : Nat) (t : List Byte) : decodeGroups cfg g t ≠ .error .invalidLength := by
  obtain ⟨k, e, herr⟩ | ⟨out, hok, -⟩ := decodeGroups_cases cfg g t
  · cases e <;> simp [herr, callError]
  · simp [hok]

/-- Groups that decode give four bytes for each whole group. -/
theorem length_of_decodeGroups_ok {g : Nat} {t b : List Byte} (h : decodeGroups cfg g t = .ok b) :
    b.length = 4 * (t.length / 5) := by
  obtain ⟨k, e, herr⟩ | ⟨out, hok, hlen⟩ := decodeGroups_cases cfg g t
  · simp [herr] at h
  · obtain rfl := Except.ok.inj (hok.symm.trans h)
    exact hlen

/-- `encode` fails with the length error exactly on an uneven length. -/
theorem encodeCall_eq_invalidLength_iff (b : List Byte) :
    encodeCall cfg b = .error .invalidLength ↔ b.length % 4 ≠ 0 := by
  refine ⟨fun h heven => ?_, encodeCall_of_uneven cfg⟩
  simp [encodeCall_of_even cfg heven] at h

/-- `decode` fails with the length error exactly on an uneven length. -/
theorem decodeCall_eq_invalidLength_iff (t : List Byte) :
    decodeCall cfg t = .error .invalidLength ↔ t.length % 5 ≠ 0 := by
  refine ⟨fun h heven => ?_, decodeCall_of_uneven cfg⟩
  rw [decodeCall_of_even cfg heven] at h
  exact decodeGroups_ne_invalidLength cfg 0 t h

end

section
variable (s : State)

/-- The sequencer issues no request for a buffer of uneven length (R92). -/
theorem runEncode_of_uneven {b : List Byte} (h : b.length % 4 ≠ 0) :
    runEncode b s = some (s, .error .invalidLength) :=
  if_pos h

/-- The sequencer issues no request for a text of uneven length (R92). -/
theorem runDecode_of_uneven {t : List Byte} (h : t.length % 5 ≠ 0) :
    runDecode t s = some (s, .error .invalidLength) :=
  if_pos h

/-- The sequencer encodes a buffer of even length group by group. -/
theorem runEncode_of_even {b : List Byte} (h : b.length % 4 = 0) :
    runEncode b s = (runEncodeGroups b s).map fun p => (p.1, .ok p.2) := by
  rw [runEncode, if_neg (not_not.2 h)]
  cases runEncodeGroups b s <;> rfl

/-- The sequencer decodes a text of even length group by group. -/
theorem runDecode_of_even {t : List Byte} (h : t.length % 5 = 0) : runDecode t s = runDecodeGroups 0 t s :=
  if_neg (not_not.2 h)

@[simp] theorem runEncodeGroups_nil : runEncodeGroups [] s = some (s, []) := rfl

@[simp] theorem runDecodeGroups_nil (g : Nat) : runDecodeGroups g [] s = some (s, .ok []) := rfl

end

/-- Settles O50: the empty buffer passes the length test and has no group. -/
theorem emptyBufferSucceeds : Obligations.EmptyBufferSucceeds := by
  intro cfg s
  have heven4 : ([] : List Byte).length % 4 = 0 := rfl
  have heven5 : ([] : List Byte).length % 5 = 0 := rfl
  refine ⟨?encode, ?decode, ?runEncode, ?runDecode⟩
  case encode => rw [encodeCall_of_even cfg heven4, encodeGroups_nil]
  case decode => rw [decodeCall_of_even cfg heven5, decodeGroups_nil]
  case runEncode => rw [runEncode_of_even s heven4, runEncodeGroups_nil, Option.map_some]
  case runDecode => rw [runDecode_of_even s heven5, runDecodeGroups_nil]

/-- Settles O42: the calls and the sequencer test the length first, and no group raises the length error later. -/
theorem invalidLengthExactly : Obligations.InvalidLengthExactly :=
  ⟨rfl, encodeCall_eq_invalidLength_iff, decodeCall_eq_invalidLength_iff, fun s _ => runEncode_of_uneven s,
    fun s _ => runDecode_of_uneven s⟩

/-- Settles O45: a call that succeeds has passed the length test, and each whole group gives five characters or four
bytes. -/
theorem callLengthLaw : Obligations.CallLengthLaw := by
  refine ⟨fun cfg b t hok => ?encode, fun cfg t b hok => ?decode⟩
  case encode =>
    have heven : b.length % 4 = 0 := by
      by_contra huneven
      simp [encodeCall_of_uneven cfg huneven] at hok
    rw [encodeCall_of_even cfg heven] at hok
    obtain rfl := Except.ok.inj hok
    rw [length_encodeGroups]
    omega
  case decode =>
    have heven : t.length % 5 = 0 := by
      by_contra huneven
      simp [decodeCall_of_uneven cfg huneven] at hok
    rw [decodeCall_of_even cfg heven] at hok
    rw [length_of_decodeGroups_ok cfg hok]
    omega

end Sys2Proof.Machine
end

section
/-! PROOFS. 60_exceptions: when `DEC` raises NumericOverflow. -/

namespace Sys2Proof.Machine

/-- The word of NumericOverflow: status 3 and zeros (60_exceptions R103). -/
theorem packAnswer_numericOverflow : packAnswer (.error .numericOverflow) = BitVec.ofNat 54 (3 * 2 ^ 51) := by
  decide

/-- NumericOverflow is the only answer with status 3 (60_exceptions R100). -/
theorem rspStatus_packAnswer_eq_three_iff {a : Answer} :
    rspStatus (packAnswer a) = 3 ↔ a = .error .numericOverflow := by
  cases a with
  | ok f => simp [packAnswer, Status.code]
  | error e => cases e <;> simp [packAnswer, Error.status, Status.code]

/-- No other answer has the word of NumericOverflow: its status tells it apart. -/
theorem packAnswer_eq_numericOverflow_iff {a : Answer} :
    packAnswer a = BitVec.ofNat 54 (3 * 2 ^ 51) ↔ a = .error .numericOverflow := by
  refine ⟨fun h => rspStatus_packAnswer_eq_three_iff.1 ?_, fun h => h ▸ packAnswer_numericOverflow⟩
  rw [h]
  decide

/-- An operation gives the response `n` exactly when the word of its answer is `n`. -/
theorem exec_eq_withResponse_iff (i : Instr) (s : State) (n : Nat) :
    exec i s = .next (s.withResponse n) ↔ packAnswer (answerOf s.config i) = BitVec.ofNat 54 n := by
  simp [exec_eq, State.withResponse, respond]

section
variable (cfg : Config)

/-- `DEC` answers NumericOverflow exactly when `DecGroup` raises it (42_decoder R83). -/
theorem answerOf_dec_eq_numericOverflow_iff (c : Chunk Byte) :
    answerOf cfg (.dec c.c0 c.c1 c.c2 c.c3 c.c4) = .error .numericOverflow ↔
      decGroup cfg c = .error .numericOverflow := by
  cases h : decGroup cfg c with
  | ok w => simp [answerOf, h]
  | error e => cases e <;> simp [answerOf, h, DecError.toError]

/-- The fold stops at an invalid character, unless all characters are in the alphabet (42_decoder R84). -/
theorem decFold_error_or_forall_digit (l : List (Fin 5 × Byte)) (acc : Nat) :
    (∃ (i : Fin 5) (x : Byte), decFold cfg l acc = .error (.invalidCharacter i x)) ∨
      ∀ p ∈ l, ∃ d : Digit, cfg.digitToChar d = p.2 := by
  induction l generalizing acc with
  | nil => exact .inr (by simp)
  | cons p rest ih =>
    obtain ⟨i, x⟩ := p
    obtain ⟨hnone, -⟩ | ⟨d, hsome, hd⟩ := charToDigit_cases cfg x
    · exact .inl ⟨i, x, decFold_cons_invalid cfg hnone⟩
    · rw [decFold_cons_valid cfg hsome]
      exact (ih _).imp_right fun hrest => List.forall_mem_cons.2 ⟨⟨d, hd⟩, hrest⟩

/-- Five characters that are all in the alphabet are the characters of a group of digits. -/
theorem exists_map_digitToChar_eq {c : Chunk Byte} (h : ∀ p ∈ c.indexed, ∃ d : Digit, cfg.digitToChar d = p.2) :
    ∃ g : Chunk Digit, g.map cfg.digitToChar = c := by
  simp only [Chunk.indexed, List.forall_mem_cons] at h
  obtain ⟨⟨d0, h0⟩, ⟨d1, h1⟩, ⟨d2, h2⟩, ⟨d3, h3⟩, ⟨d4, h4⟩, -⟩ := h
  exact ⟨⟨d0, d1, d2, d3, d4⟩, by rw [Chunk.map, h0, h1, h2, h3, h4]⟩

/-- Five code units are a group of digits' characters, or `DecGroup` raises InvalidCharacter. -/
theorem decGroup_invalidCharacter_or_digits (c : Chunk Byte) :
    (∃ (i : Fin 5) (x : Byte), decGroup cfg c = .error (.invalidCharacter i x)) ∨
      ∃ g : Chunk Digit, g.map cfg.digitToChar = c := by
  obtain ⟨i, x, herr⟩ | hdigits := decFold_error_or_forall_digit cfg c.indexed 0
  · exact .inl ⟨i, x, decGroup_of_decFold_error cfg herr⟩
  · exact .inr (exists_map_digitToChar_eq cfg hdigits)

/-- The overflow test fails exactly in strict mode on a number of 2^32 or more (42_decoder R82). -/
theorem narrowAcc_eq_numericOverflow_iff {acc : Nat} :
    narrowAcc cfg acc = .error .numericOverflow ↔ cfg.strictOverflow = true ∧ 2 ^ 32 ≤ acc := by
  obtain ⟨hge, hstrict, herr⟩ | ⟨hno, hok⟩ := narrowAcc_cases cfg acc
  · simp only [herr, hstrict, hge, and_self]
  · rw [and_comm, hok]
    simp only [reduceCtorEq, hno]

end

/-- `DecGroup` raises NumericOverflow exactly in strict mode on alphabet characters that spell 2^32 or more. -/
theorem decGroup_eq_numericOverflow_iff {cfg : Config} (hL : cfg.Legal) {c : Chunk Byte} :
    decGroup cfg c = .error .numericOverflow ↔
      cfg.strictOverflow = true ∧ ∃ g : Chunk Digit, g.map cfg.digitToChar = c ∧ 2 ^ 32 ≤ g.value := by
  constructor
  · intro hover
    obtain ⟨i, x, hinvalid⟩ | ⟨g, rfl⟩ := decGroup_invalidCharacter_or_digits cfg c
    · simp [hinvalid] at hover
    · rw [decGroup_digits hL, narrowAcc_eq_numericOverflow_iff] at hover
      exact hover.imp_right fun hge => ⟨g, rfl, hge⟩
  · rintro ⟨hstrict, g, rfl, hge⟩
    rw [decGroup_digits hL, narrowAcc_of_strict hstrict hge]

/-- Settles O15: the response word of NumericOverflow is no other answer's, and `DecGroup` raises that error exactly in
strict mode on five alphabet characters that spell 2^32 or more. -/
theorem decOverflowsExactlyWhenStrict : Obligations.DecOverflowsExactlyWhenStrict := by
  intro s c hL
  rw [exec_eq_withResponse_iff, packAnswer_eq_numericOverflow_iff, answerOf_dec_eq_numericOverflow_iff,
    decGroup_eq_numericOverflow_iff hL]

end Sys2Proof.Machine
end

section
/-! PROOFS. 30_encoding: the decoder and the encoder are inverse to each other, and agree with the table of R54, with the
well-formedness checks and with the assembler. -/

namespace Sys2Proof.Machine

section
variable (r : Request) (i : Instr)

/-- A field of the operand as a number. -/
theorem operandOf_field_toNat (a b : Nat) :
    ((operandOf r).extractLsb' a b).toNat = r.toNat % 2 ^ 40 / 2 ^ a % 2 ^ b := by
  rw [extractLsb'_toNat_div, operandOf_toNat]

/-- The word of every operation decodes to it. -/
theorem decode_encode : decode (encode i) = .ok i := by
  have hword := encode_toNat i
  cases i with
  | enc w =>
    have := w.isLt
    simp only [Instr.opNat, Instr.operandNat] at hword
    rw [decode_enc (by omega), if_neg (by omega)]
    congr 2
    apply BitVec.eq_of_toNat_eq
    rw [operandOf_field_toNat]
    omega
  | dec c0 c1 c2 c3 c4 =>
    have := c0.isLt; have := c1.isLt; have := c2.isLt; have := c3.isLt; have := c4.isLt
    simp only [Instr.opNat, Instr.operandNat] at hword
    rw [decode_dec (by omega)]
    congr 2 <;> apply BitVec.eq_of_toNat_eq <;> rw [operandOf_field_toNat] <;> omega
  | fwd d =>
    have := d.isLt
    simp only [Instr.opNat, Instr.operandNat] at hword
    rw [decode_fwd (by omega), if_neg (by omega)]
    congr 2
    apply BitVec.eq_of_toNat_eq
    rw [operandOf_field_toNat]
    omega
  | rev c =>
    have := c.isLt
    simp only [Instr.opNat, Instr.operandNat] at hword
    rw [decode_rev (by omega), if_neg (by omega)]
    congr 2
    apply BitVec.eq_of_toNat_eq
    rw [operandOf_field_toNat]
    omega

/-- A request word without reserved bits is the word of an operation (R42 to R44, R48). -/
theorem exists_encode_eq_of_not_hasReservedBits (h : ¬ HasReservedBits r) : ∃ i : Instr, encode i = r := by
  have := r.isLt
  unfold HasReservedBits at h
  obtain hop | hop | hop | hop := op_cases r
  · refine ⟨.enc ((operandOf r).extractLsb' 0 32), BitVec.eq_of_toNat_eq ?_⟩
    simp only [encode_toNat, Instr.opNat, Instr.operandNat, operandOf_field_toNat]
    omega
  · refine ⟨.dec ((operandOf r).extractLsb' 32 8) ((operandOf r).extractLsb' 24 8) ((operandOf r).extractLsb' 16 8)
      ((operandOf r).extractLsb' 8 8) ((operandOf r).extractLsb' 0 8), BitVec.eq_of_toNat_eq ?_⟩
    simp only [encode_toNat, Instr.opNat, Instr.operandNat, operandOf_field_toNat]
    omega
  · refine ⟨.fwd ((operandOf r).extractLsb' 0 7), BitVec.eq_of_toNat_eq ?_⟩
    simp only [encode_toNat, Instr.opNat, Instr.operandNat, operandOf_field_toNat]
    omega
  · refine ⟨.rev ((operandOf r).extractLsb' 0 8), BitVec.eq_of_toNat_eq ?_⟩
    simp only [encode_toNat, Instr.opNat, Instr.operandNat, operandOf_field_toNat]
    omega

/-- Everything the decoder can do: reject a word with a reserved bit set, or give the operation whose word it is. -/
theorem decode_cases :
    (HasReservedBits r ∧ ∃ e : Reject, decode r = .error e) ∨
    (¬ HasReservedBits r ∧ ∃ i : Instr, decode r = .ok i ∧ encode i = r) := by
  by_cases h : HasReservedBits r
  · exact .inl ⟨h, decode_error_of_hasReservedBits h⟩
  · obtain ⟨i, rfl⟩ := exists_encode_eq_of_not_hasReservedBits r h
    exact .inr ⟨h, i, decode_encode i, rfl⟩

/-- The decoder accepts exactly the words without reserved bits. -/
theorem exists_decode_eq_ok_iff : (∃ i : Instr, decode r = .ok i) ↔ ¬ HasReservedBits r := by
  obtain ⟨hbits, e, he⟩ | ⟨hbits, i, hi, -⟩ := decode_cases r
  · simp [hbits, he]
  · simp [hbits, hi]

/-- The checks of R48 refuse exactly the words with reserved bits. -/
theorem wellFormed_iff_not_hasReservedBits : Request.wellFormed r = true ↔ ¬ HasReservedBits r := by
  have hop : (r.extractLsb' 40 2).toNat = r.toNat / 2 ^ 40 := opOf_toNat r
  have := r.isLt
  have hfield (a b : Nat) : (r.extractLsb' a b == 0) = true ↔ r.toNat / 2 ^ a % 2 ^ b = 0 := by
    simp only [beq_iff_eq, ← BitVec.toNat_inj, extractLsb'_toNat_div, BitVec.ofNat_eq_ofNat, BitVec.toNat_ofNat,
      Nat.zero_mod]
  unfold Request.wellFormed
  rw [hop]
  obtain h | h | h | h := op_cases r <;> simp only [h, hfield, true_iff] <;> unfold HasReservedBits <;> omega

/-- The word of an operation, written as a number. -/
theorem encode_eq_ofNat : encode i = BitVec.ofNat 42 (i.opNat * 2 ^ 40 + i.operandNat) := by
  rw [← encode_toNat, BitVec.ofNat_toNat, BitVec.setWidth_eq]

end

/-- Settles O7: the fields of the word of an operation are its `op` and its operands. -/
theorem decodeOfEncode : Obligations.DecodeOfEncode := decode_encode

/-- Settles O8: a word that is not rejected is the word of the operation it decodes to. -/
theorem encodeOfDecode : Obligations.EncodeOfDecode := by
  intro r i hi
  obtain ⟨-, e, he⟩ | ⟨-, j, hj, hword⟩ := decode_cases r
  · simp [he] at hi
  · obtain rfl := Except.ok.inj (hj.symm.trans hi)
    exact hword

/-- Settles O10: the checks and the decoder both refuse exactly the words with reserved bits. -/
theorem wellFormedWordsDecode : Obligations.WellFormedWordsDecode := by
  have haccept (r : Request) : r.wellFormed = true ↔ ∃ i : Instr, decode r = .ok i := by
    rw [wellFormed_iff_not_hasReservedBits, exists_decode_eq_ok_iff]
  refine ⟨haccept, fun i => ?_⟩
  rw [Instr.wellFormed, ← encode_eq_ofNat, haccept]
  exact ⟨i, decode_encode i⟩

/-! ### The table of R54 -/

/-- A mask of all bits from bit `k` on keeps exactly those bits. -/
theorem toNat_div_of_and_highMask {r mask pattern : Request} {k : Nat} (hmask : mask = BitVec.allOnes 42 <<< k)
    (h : r &&& mask = pattern) : r.toNat / 2 ^ k = pattern.toNat / 2 ^ k := by
  have hshift : r >>> k = pattern >>> k := by
    rw [← h, hmask]
    apply BitVec.eq_of_getLsbD_eq
    intro j hj
    simp only [BitVec.getLsbD_ushiftRight, BitVec.getLsbD_and, BitVec.getLsbD_shiftLeft, BitVec.getLsbD_allOnes]
    by_cases hr : k + j < 42
    · simp [hr, show j < 42 by omega]
    · simp [BitVec.getLsbD_of_ge r (k + j) (by omega)]
  simpa [Nat.shiftRight_eq_div_pow] using congrArg BitVec.toNat hshift

/-- The masks of the four rows are the bits from 32, 40, 7 and 8 on. -/
theorem selects_toNat {row : TableRow} {r : Request} (hrow : row ∈ opcodeTable) (h : row.selects r = true) :
    (row = ⟨"ENC", 0x00000000000#42, 0x3FF00000000#42⟩ ∧ r.toNat / 2 ^ 32 = 0) ∨
    (row = ⟨"DEC", 0x10000000000#42, 0x30000000000#42⟩ ∧ r.toNat / 2 ^ 40 = 1) ∨
    (row = ⟨"FWD", 0x20000000000#42, 0x3FFFFFFFF80#42⟩ ∧ r.toNat / 2 ^ 7 = 2 * 2 ^ 33) ∨
    (row = ⟨"REV", 0x30000000000#42, 0x3FFFFFFFF00#42⟩ ∧ r.toNat / 2 ^ 8 = 3 * 2 ^ 32) := by
  rw [TableRow.selects, beq_iff_eq] at h
  simp only [opcodeTable, List.mem_cons, List.not_mem_nil, or_false] at hrow
  obtain rfl | rfl | rfl | rfl := hrow
  · exact .inl ⟨rfl, toNat_div_of_and_highMask (k := 32) (by decide) h⟩
  · exact .inr (.inl ⟨rfl, toNat_div_of_and_highMask (k := 40) (by decide) h⟩)
  · exact .inr (.inr (.inl ⟨rfl, toNat_div_of_and_highMask (k := 7) (by decide) h⟩))
  · exact .inr (.inr (.inr ⟨rfl, toNat_div_of_and_highMask (k := 8) (by decide) h⟩))

/-- A word with reserved bits selects no row. -/
theorem not_hasReservedBits_of_selects {row : TableRow} {r : Request} (hrow : row ∈ opcodeTable)
    (h : row.selects r = true) : ¬ HasReservedBits r := by
  unfold HasReservedBits
  obtain ⟨-, hr⟩ | ⟨-, hr⟩ | ⟨-, hr⟩ | ⟨-, hr⟩ := selects_toNat hrow h <;> omega

/-- A word that selects a row has the `op` of its pattern. -/
theorem op_of_selects {row : TableRow} {r : Request} (hrow : row ∈ opcodeTable) (h : row.selects r = true) :
    r.toNat / 2 ^ 40 = row.pattern.toNat / 2 ^ 40 := by
  obtain ⟨rfl, hr⟩ | ⟨rfl, hr⟩ | ⟨rfl, hr⟩ | ⟨rfl, hr⟩ := selects_toNat hrow h <;> simp only [BitVec.toNat_ofNat] <;>
    omega

/-- The patterns of the four rows have four different values of `op`. -/
theorem row_eq_of_op_eq : ∀ row ∈ opcodeTable, ∀ row' ∈ opcodeTable,
    row.pattern.toNat / 2 ^ 40 = row'.pattern.toNat / 2 ^ 40 → row = row' := by
  decide

/-- The rows are disjoint. -/
theorem row_eq_of_selects {row row' : TableRow} {r : Request} (hrow : row ∈ opcodeTable) (hrow' : row' ∈ opcodeTable)
    (h : row.selects r = true) (h' : row'.selects r = true) : row = row' :=
  row_eq_of_op_eq row hrow row' hrow' ((op_of_selects hrow h).symm.trans (op_of_selects hrow' h'))

/-- The word of an operation selects the row of its mnemonic. -/
theorem exists_row_selects_encode (i : Instr) :
    ∃ row ∈ opcodeTable, row.mnemonic = mnemonicOf i ∧ row.selects (encode i) = true := by
  cases i with
  | enc w => exact Laws.EncodeSelectsOwnRow.enc w
  | dec c0 c1 c2 c3 c4 => exact Laws.EncodeSelectsOwnRow.dec c0 c1 c2 c3 c4
  | fwd d => exact Laws.EncodeSelectsOwnRow.fwd d
  | rev c => exact Laws.EncodeSelectsOwnRow.rev c

/-- Settles O9: a word that is not rejected is the word of an operation, which selects the row of its mnemonic and, the
rows being disjoint, no other; a rejected word has reserved bits and selects no row. -/
theorem tableRowsDecideDecoding : Obligations.TableRowsDecideDecoding := by
  refine ⟨fun r row row' hrow hrow' => row_eq_of_selects hrow hrow', fun r row hrow hsel => ?selected,
    fun r hnone => ?unselected⟩
  case selected =>
    obtain ⟨hbits, -⟩ | ⟨-, i, hi, rfl⟩ := decode_cases r
    · exact absurd hbits (not_hasReservedBits_of_selects hrow hsel)
    · obtain ⟨own, hown, hmnemonic, hselOwn⟩ := exists_row_selects_encode i
      exact ⟨i, hi, by rw [row_eq_of_selects hrow hown hsel hselOwn, hmnemonic]⟩
  case unselected =>
    obtain ⟨-, hrejected⟩ | ⟨-, i, -, rfl⟩ := decode_cases r
    · exact hrejected
    · obtain ⟨own, hown, -, hselOwn⟩ := exists_row_selects_encode i
      simp [hnone own hown] at hselOwn

/-- Settles O6: the accepted words are words of operations, the others have a reserved bit set. -/
theorem specWordsDecode : Obligations.SpecWordsDecode :=
  ⟨decode_encode (.enc 1), decode_encode (.enc 0xFFFFFFFF), decode_encode (.dec 0x2C 0x21 0x25 0x23 0x21),
    decode_encode (.fwd 85), decode_encode (.rev 0x7A), by decide, by decide, by decide⟩

/-! ### The assembler -/

/-- A well-formed form stands for the word of its operation. -/
theorem assemble_of_wellFormed {a : AsmRequest} (h : a.wellFormed = true) : assemble a = some (encode a.toInstr) :=
  if_pos h

/-- An ill-formed form stands for no word. -/
theorem assemble_of_not_wellFormed {a : AsmRequest} (h : ¬ a.wellFormed = true) : assemble a = none :=
  if_neg h

/-- The code unit of a byte's number is the byte. -/
@[simp] theorem byteOfNat_toNat (b : Byte) : byteOfNat b.toNat = b := by
  simp [byteOfNat]

/-- A form with one number stands for the word with that number as operand if it fits its field, and for none otherwise. -/
theorem assemble_of_bound {a : AsmRequest} {op n : Nat} {p : Prop} [Decidable p] (hwell : a.wellFormed = true ↔ p)
    (hop : a.toInstr.opNat = op) (hoperand : p → a.toInstr.operandNat = n) :
    assemble a = if p then some (BitVec.ofNat 42 (op * 2 ^ 40 + n)) else none := by
  by_cases hp : p
  · rw [assemble_of_wellFormed (hwell.2 hp), encode_eq_ofNat, hop, hoperand hp, if_pos hp]
  · rw [assemble_of_not_wellFormed (mt hwell.1 hp), if_neg hp]

/-- Settles O53: a form whose numbers fit their fields stands for the word of its operation, which is its `op` and its
operand as a number. -/
theorem assembledFormsAreRequestWords : Obligations.AssembledFormsAreRequestWords := by
  refine ⟨fun n => ?encWord, fun b0 b1 b2 b3 => ?encBytes, fun c0 c1 c2 c3 c4 => ?decCodes, fun _ _ _ _ _ => rfl,
    fun n => ?fwd, fun n => ?revCode, fun _ => rfl⟩
  case encWord =>
    rw [assemble_of_bound (op := 0) (n := n) (p := n < 2 ^ 32) (by simp [AsmRequest.wellFormed]) rfl fun hn => ?_]
    · rw [Nat.zero_mul, Nat.zero_add]
    · exact (BitVec.toNat_ofNat n 32).trans (Nat.mod_eq_of_lt hn)
  case encBytes =>
    have hwell : (AsmRequest.encBytes b0.toNat b1.toNat b2.toNat b3.toNat).wellFormed = true := by
      simp [AsmRequest.wellFormed, b0.isLt, b1.isLt, b2.isLt, b3.isLt]
    rw [assemble_of_wellFormed hwell, encode_eq_ofNat]
    simp only [AsmRequest.toInstr, Instr.opNat, Instr.operandNat, byteOfNat_toNat, wordOfBytes_toNat, Nat.zero_mul,
      Nat.zero_add]
  case decCodes =>
    have hwell : (AsmRequest.decCodes c0.toNat c1.toNat c2.toNat c3.toNat c4.toNat).wellFormed = true := by
      simp [AsmRequest.wellFormed, c0.isLt, c1.isLt, c2.isLt, c3.isLt, c4.isLt]
    rw [assemble_of_wellFormed hwell, encode_eq_ofNat]
    simp only [AsmRequest.toInstr, Instr.opNat, Instr.operandNat, byteOfNat_toNat, Nat.one_mul, Nat.add_assoc]
  case fwd =>
    refine assemble_of_bound (by simp [AsmRequest.wellFormed]) rfl fun hn => ?_
    exact (BitVec.toNat_ofNat n 7).trans (Nat.mod_eq_of_lt (by omega))
  case revCode =>
    refine assemble_of_bound (by simp [AsmRequest.wellFormed]) rfl fun hn => ?_
    exact (BitVec.toNat_ofNat n 8).trans (Nat.mod_eq_of_lt hn)

end Sys2Proof.Machine
end

section
/-! PROOFS. 42_decoder: which character the fold stops at, and what `DecGroup` depends on. -/

namespace Sys2Proof.Machine

/-- The member of a group with the index `j`. -/
theorem chunk_indexed_getElem?_eq_some_iff {α : Type} {g : Chunk α} {j : Nat} {p : Fin 5 × α} :
    g.indexed[j]? = some p ↔ p.1.val = j ∧ g.toList[j]? = some p.2 := by
  obtain ⟨i, x⟩ := p
  have hindex (k : Fin 5) : k = i ↔ i.val = k.val := by rw [Fin.ext_iff, eq_comm]
  match j with
  | 0 | 1 | 2 | 3 | 4 => simp [Chunk.indexed, Chunk.toList, hindex]
  | j + 5 => simp [Chunk.indexed, Chunk.toList]

section
variable (cfg : Config)

/-- The fold raises InvalidCharacter for the first character that is not in the alphabet (R84). -/
theorem decFold_append_invalid {pre post : List (Fin 5 × Byte)} {i : Fin 5} {x : Byte} (acc : Nat)
    (hpre : ∀ p ∈ pre, ∃ d : Digit, cfg.digitToChar d = p.2) (hx : ∀ d : Digit, cfg.digitToChar d ≠ x) :
    decFold cfg (pre ++ (i, x) :: post) acc = .error (.invalidCharacter i x) := by
  induction pre generalizing acc with
  | nil => exact decFold_cons_invalid cfg ((charToDigit_eq_none_iff cfg).2 hx)
  | cons p pre ih =>
    obtain ⟨⟨d, hd⟩, hrest⟩ := List.forall_mem_cons.1 hpre
    obtain ⟨-, hno⟩ | ⟨e, he, -⟩ := charToDigit_cases cfg p.2
    · exact absurd hd (hno d)
    · exact (decFold_cons_valid cfg he).trans (ih _ hrest)

/-- The only error of the fold is InvalidCharacter, at a character that is the first one not in the alphabet (R84). -/
theorem eq_append_invalid_of_decFold_error {l : List (Fin 5 × Byte)} {acc : Nat} {e : DecError}
    (h : decFold cfg l acc = .error e) :
    ∃ (pre post : List (Fin 5 × Byte)) (i : Fin 5) (x : Byte), l = pre ++ (i, x) :: post ∧
      (∀ p ∈ pre, ∃ d : Digit, cfg.digitToChar d = p.2) ∧ (∀ d : Digit, cfg.digitToChar d ≠ x) ∧
      e = .invalidCharacter i x := by
  induction l generalizing acc with
  | nil => simp at h
  | cons p rest ih =>
    obtain ⟨i, x⟩ := p
    obtain ⟨hnone, hno⟩ | ⟨d, hsome, hd⟩ := charToDigit_cases cfg x
    · rw [decFold_cons_invalid cfg hnone] at h
      exact ⟨[], rest, i, x, rfl, by simp, hno, (Except.error.inj h).symm⟩
    · rw [decFold_cons_valid cfg hsome] at h
      obtain ⟨pre, post, j, y, rfl, hpre, hy, he⟩ := ih h
      exact ⟨(i, x) :: pre, post, j, y, rfl, List.forall_mem_cons.2 ⟨⟨d, hd⟩, hpre⟩, hy, he⟩

/-- The character `x` at the position `i` of a group is the first one that is not in the alphabet. -/
def FirstInvalid (g : Chunk Byte) (i : Nat) (x : Byte) : Prop :=
  g.toList[i]? = some x ∧ (∀ d : Digit, cfg.digitToChar d ≠ x) ∧
    ∀ (j : Nat) (y : Byte), j < i → g.toList[j]? = some y → ∃ d : Digit, cfg.digitToChar d = y

/-- The only error of the fold over a group is InvalidCharacter, at the group's first invalid character. -/
theorem firstInvalid_of_decFold_error {g : Chunk Byte} {e : DecError} (h : decFold cfg g.indexed 0 = .error e) :
    ∃ (i : Fin 5) (x : Byte), e = .invalidCharacter i x ∧ FirstInvalid cfg g i.val x := by
  obtain ⟨pre, post, i, x, hg, hpre, hx, he⟩ := eq_append_invalid_of_decFold_error cfg h
  have hat : g.indexed[pre.length]? = some (i, x) := by simp [hg]
  obtain ⟨hi, hi'⟩ : i.val = pre.length ∧ g.toList[pre.length]? = some x := chunk_indexed_getElem?_eq_some_iff.1 hat
  refine ⟨i, x, he, hi ▸ hi', hx, fun j y hj hy => ?_⟩
  have hy' : g.indexed[j]? = some (⟨j, by omega⟩, y) := chunk_indexed_getElem?_eq_some_iff.2 ⟨rfl, hy⟩
  rw [hg, List.getElem?_append_left (by omega)] at hy'
  exact hpre _ (List.mem_of_getElem? hy')

/-- `DecGroup` raises InvalidCharacter for a group's first invalid character (R84). -/
theorem decGroup_of_firstInvalid {g : Chunk Byte} {i : Fin 5} {x : Byte} (h : FirstInvalid cfg g i.val x) :
    decGroup cfg g = .error (.invalidCharacter i x) := by
  obtain ⟨hat, hx, hbefore⟩ := h
  have hat' : g.indexed[i.val]? = some (i, x) := chunk_indexed_getElem?_eq_some_iff.2 ⟨rfl, hat⟩
  obtain ⟨hlt, hget⟩ := List.getElem?_eq_some_iff.1 hat'
  have hsplit : g.indexed = g.indexed.take i.val ++ (i, x) :: g.indexed.drop (i.val + 1) := by
    rw [← hget, List.getElem_cons_drop, List.take_append_drop]
  refine decGroup_of_decFold_error cfg ?_
  rw [hsplit]
  refine decFold_append_invalid cfg 0 (fun p hp => ?_) hx
  obtain ⟨j, hj, hpj⟩ := List.mem_take_iff_getElem.1 hp
  have hj' : j < i.val := by omega
  exact hbefore j p.2 hj' (chunk_indexed_getElem?_eq_some_iff.1 (List.getElem?_eq_some_iff.2 ⟨_, hpj⟩)).2

/-- What `DecGroup` raises: InvalidCharacter at the first invalid character, or NumericOverflow in strict mode after five
alphabet characters. -/
theorem decGroup_error_cases {g : Chunk Byte} {e : DecError} (h : decGroup cfg g = .error e) :
    (∃ (i : Fin 5) (x : Byte), e = .invalidCharacter i x ∧ FirstInvalid cfg g i.val x) ∨
    (e = .numericOverflow ∧ cfg.strictOverflow = true ∧ ∃ d : Chunk Digit, d.map cfg.digitToChar = g) := by
  cases hfold : decFold cfg g.indexed 0 with
  | error e' =>
    rw [decGroup_of_decFold_error cfg hfold] at h
    obtain rfl := Except.error.inj h
    exact .inl (firstInvalid_of_decFold_error cfg hfold)
  | ok acc =>
    rw [decGroup_of_decFold_ok cfg hfold] at h
    obtain ⟨-, hstrict, hover⟩ | ⟨-, hok⟩ := narrowAcc_cases cfg acc
    · obtain rfl := Except.error.inj (hover.symm.trans h)
      obtain ⟨i, x, herr⟩ | hdigits := decFold_error_or_forall_digit cfg g.indexed 0
      · simp [hfold] at herr
      · exact .inr ⟨rfl, hstrict, exists_map_digitToChar_eq cfg hdigits⟩
    · simp [hok] at h

/-- A group that decodes consists of alphabet characters. -/
theorem exists_digits_of_decGroup_ok {g : Chunk Byte} {w : GroupWord} (h : decGroup cfg g = .ok w) :
    ∃ d : Chunk Digit, d.map cfg.digitToChar = g := by
  obtain ⟨i, x, herr⟩ | hdigits := decGroup_invalidCharacter_or_digits cfg g
  · simp [h] at herr
  · exact hdigits

/-! ### The accumulator -/

/-- With 33 bits or more, the accumulator after `k` valid characters is below 85^k (R86). -/
theorem decFold_lt (hacc : 33 ≤ cfg.accBits) {l : List (Fin 5 × Byte)} {k acc n : Nat} (hk : k + l.length ≤ 5)
    (hlt : acc < 85 ^ k) (h : decFold cfg l acc = .ok n) : n < 85 ^ (k + l.length) := by
  induction l generalizing k acc with
  | nil =>
    obtain rfl := Except.ok.inj h
    exact hlt
  | cons p rest ih =>
    obtain ⟨i, x⟩ := p
    rw [List.length_cons] at hk ⊢
    obtain ⟨hnone, -⟩ | ⟨d, hsome, -⟩ := charToDigit_cases cfg x
    · simp [decFold_cons_invalid cfg hnone] at h
    · have hacc4 : acc < 85 ^ 4 := hlt.trans_le (Nat.pow_le_pow_right (by decide) (by omega))
      rw [decFold_cons_valid cfg hsome, mulAcc_exact cfg d hacc hacc4] at h
      have := d.isLt
      rw [show k + (rest.length + 1) = k + 1 + rest.length by omega]
      exact ih (by omega) (by rw [Nat.pow_succ]; omega) h

/-- Two accumulators of 33 bits or more give the same fold over five characters (R86). -/
theorem decFold_accBits {b : Nat} (hacc : 33 ≤ cfg.accBits) (hb : 33 ≤ b) {l : List (Fin 5 × Byte)} {k acc : Nat}
    (hk : k + l.length ≤ 5) (hlt : acc < 85 ^ k) : decFold { cfg with accBits := b } l acc = decFold cfg l acc := by
  induction l generalizing k acc with
  | nil => rfl
  | cons p rest ih =>
    obtain ⟨i, x⟩ := p
    rw [List.length_cons] at hk
    have hsame : charToDigit { cfg with accBits := b } x = charToDigit cfg x := rfl
    obtain ⟨hnone, -⟩ | ⟨d, hsome, -⟩ := charToDigit_cases cfg x
    · rw [decFold_cons_invalid cfg hnone, decFold_cons_invalid _ (hsame.trans hnone)]
    · have hacc4 : acc < 85 ^ 4 := hlt.trans_le (Nat.pow_le_pow_right (by decide) (by omega))
      have := d.isLt
      rw [decFold_cons_valid cfg hsome, decFold_cons_valid _ (hsame.trans hsome), mulAcc_exact cfg d hacc hacc4,
        mulAcc_exact { cfg with accBits := b } d hb hacc4]
      exact ih (k := k + 1) (by omega) (by rw [Nat.pow_succ]; omega)

/-- The decoder does not read the widths of the ROMs. -/
theorem decFold_romWidths (fwdAddrBits revWordBits : Nat) (l : List (Fin 5 × Byte)) (acc : Nat) :
    decFold { cfg with fwdAddrBits := fwdAddrBits, revWordBits := revWordBits } l acc = decFold cfg l acc := by
  induction l generalizing acc with
  | nil => rfl
  | cons p rest ih =>
    obtain ⟨i, x⟩ := p
    have hsame : charToDigit { cfg with fwdAddrBits := fwdAddrBits, revWordBits := revWordBits } x =
      charToDigit cfg x := rfl
    obtain ⟨hnone, -⟩ | ⟨d, hsome, -⟩ := charToDigit_cases cfg x
    · rw [decFold_cons_invalid cfg hnone, decFold_cons_invalid _ (hsame.trans hnone)]
    · rw [decFold_cons_valid cfg hsome, decFold_cons_valid _ (hsame.trans hsome)]
      exact ih _

/-- `DecGroup` does not read the widths of the ROMs. -/
theorem decGroup_romWidths (fwdAddrBits revWordBits : Nat) (g : Chunk Byte) :
    decGroup { cfg with fwdAddrBits := fwdAddrBits, revWordBits := revWordBits } g = decGroup cfg g := by
  rw [decGroup, decGroup, decFold_romWidths]
  rfl

end

/-- Settles O37: no multiply-accumulate of five characters reaches 2^33. -/
theorem accumulatorLosesNothing : Obligations.AccumulatorLosesNothing := by
  refine ⟨fun cfg cs acc hacc hlen hfold => ?bound, fun cfg b g hacc hb => ?width⟩
  case bound =>
    have hlt : acc < 85 ^ (0 + cs.length) := decFold_lt cfg hacc (by omega) (by decide) hfold
    rw [Nat.zero_add] at hlt
    have hmax : 85 ^ cs.length ≤ 85 ^ 5 := Nat.pow_le_pow_right (by decide) hlen
    refine ⟨hlt, ?_⟩
    rw [Nat.testBit_eq_decide_div_mod_eq, decide_eq_true_iff]
    omega
  case width =>
    rw [decGroup, decGroup, decFold_accBits cfg hacc hb (k := 0) (by simp [Chunk.indexed]) (by decide)]
    rfl

/-- Settles O38: wrap mode takes the number the digits spell modulo 2^32, and so does the stepwise fold, since
multiplication and addition modulo 2^32 are those of 32-bit words. -/
theorem wrapModeIsStepwiseWrap : Obligations.WrapModeIsStepwiseWrap := by
  intro cfg g hL hwrap
  rw [decGroup_digits hL, narrowAcc_of_wrap hwrap]
  refine ⟨?stepwise, fun hge => ⟨?wrapped, ?bound⟩⟩
  case stepwise =>
    have hhorner : g.value =
        (((g.c0.val * 85 + g.c1.val) * 85 + g.c2.val) * 85 + g.c3.val) * 85 + g.c4.val := by
      rw [Chunk.value]
      ring
    simp only [hhorner, BitVec.ofNat_add, BitVec.ofNat_mul, BitVec.ofNat_eq_ofNat]
  case wrapped =>
    rw [Except.ok.injEq, ← toNat_ofNat_value_of_overflow hge, BitVec.ofNat_toNat, BitVec.setWidth_eq]
  case bound =>
    have := chunk_value_lt g
    omega

end Sys2Proof.Machine
end

section
/-! PROOFS. 30_encoding: response words and answers correspond one to one, and the shape every response word has. -/

namespace Sys2Proof.Machine

/-- A response word is made of its four fields (R45). -/
theorem responseWord_fields (w : Response) :
    responseWord (rspStatus w) (rspErrPos w) (rspErrVal w) (rspResult w) = w := by
  apply BitVec.eq_of_toNat_eq
  have := w.isLt
  simp only [responseWord_toNat, rspStatus, rspErrPos, rspErrVal, rspResult, extractLsb'_toNat_div]
  omega

/-- Reading the word of an answer gives the answer. -/
@[simp] theorem parseResponse_packAnswer (a : Answer) : parseResponse (packAnswer a) = some a := by
  cases a with
  | ok f => simp [parseResponse, packAnswer]
  | error e =>
    cases e with
    | invalidCharacter pos val =>
      have hpos : pos.val % 8 = pos.val := by omega
      simp [parseResponse, packAnswer, Error.status, Error.pos, Error.val, Status.code, hpos]
    | numericOverflow => decide
    | digitRange => decide
    | illegalRequest => decide

/-- A word that reads as an answer is the word of that answer. -/
theorem packAnswer_of_parseResponse {w : Response} {a : Answer} (h : parseResponse w = some a) : packAnswer a = w := by
  rw [← responseWord_fields w]
  unfold parseResponse at h
  split at h
  next hstatus =>
    split at h
    next hfields =>
      obtain ⟨hpos, hval⟩ := hfields
      obtain rfl := Option.some.inj h
      rw [hstatus, hpos, hval, packAnswer]
    next => cases h
  next =>
    split at h
    next => cases h
    next hresult =>
      have hzero : rspResult w = 0 := not_not.1 hresult
      split at h
      next hstatus =>
        split at h
        next hlt =>
          obtain rfl := Option.some.inj h
          simp [packAnswer, Error.status, Error.pos, Error.val, hstatus, hzero]
        next => cases h
      next =>
        split at h
        next => cases h
        next hfields =>
          obtain ⟨hpos, hval⟩ := not_or.1 hfields
          rw [hzero, not_not.1 hpos, not_not.1 hval]
          split at h
          next hstatus => obtain rfl := Option.some.inj h; rw [hstatus]; rfl
          next =>
            split at h
            next hstatus => obtain rfl := Option.some.inj h; rw [hstatus]; rfl
            next =>
              split at h
              next hstatus => obtain rfl := Option.some.inj h; rw [hstatus]; rfl
              next => cases h

/-- Settles O28: the fields of the word of an answer are read back, and a word is made of its fields. -/
theorem responseWordsRoundTrip : Obligations.ResponseWordsRoundTrip :=
  ⟨parseResponse_packAnswer, fun _ _ => packAnswer_of_parseResponse⟩

/-- The word of every answer has the shape of a response word (R45, R47, R49). -/
theorem responseShape_packAnswer (a : Answer) : ResponseShape (packAnswer a) := by
  cases a with
  | ok f => constructor <;> simp [packAnswer, Status.code]
  | error e =>
    cases e with
    | invalidCharacter pos val =>
      constructor <;> simp [packAnswer, Error.status, Error.pos, Status.code]
      omega
    | numericOverflow => constructor <;> decide
    | digitRange => constructor <;> decide
    | illegalRequest => constructor <;> decide

end Sys2Proof.Machine
end

section
/-! PROOFS. 10_state, 20_memory, 70_reset_and_hazards: what a step and a run do to the state, whatever is requested. -/

namespace Sys2Proof.Machine

/-- The response word of a request, a function of the parameters (10_state R10). -/
def responseTo (cfg : Config) (r : Request) : Response := packAnswer (answerOfRequest cfg r)

/-- The state in which every pending request has been taken and answered. -/
def State.answerAll (s : State) : State :=
  ⟨s.config, [], s.answered ++ s.pending, s.responses ++ s.pending.map (responseTo s.config)⟩

section
variable (s : State)

@[simp] theorem answerAll_config : s.answerAll.config = s.config := rfl
@[simp] theorem answerAll_pending : s.answerAll.pending = [] := rfl
@[simp] theorem answerAll_answered : s.answerAll.answered = s.answered ++ s.pending := rfl
@[simp] theorem answerAll_responses :
    s.answerAll.responses = s.responses ++ s.pending.map (responseTo s.config) := rfl

end

/-- What a step reaches: the state itself, or the state with one request taken and answered. -/
theorem eq_of_step {s t : State} (h : step s = .next t) :
    (s.pending = [] ∧ t = s) ∨
    ∃ r rest, s.pending = r :: rest ∧
      t = ⟨s.config, rest, s.answered ++ [r], s.responses ++ [responseTo s.config r]⟩ := by
  obtain ⟨hnil, hstep⟩ | ⟨r, rest, hcons, hstep⟩ := step_cases s
  · exact .inl ⟨hnil, (Host.Outcome.next.inj (hstep.symm.trans h)).symm⟩
  · exact .inr ⟨r, rest, hcons, (Host.Outcome.next.inj (hstep.symm.trans h)).symm⟩

/-- A step answers the next request with its response word. -/
theorem step_cons {s : State} {r : Request} {rest : List Request} (h : s.pending = r :: rest) :
    step s = .next ⟨s.config, rest, s.answered ++ [r], s.responses ++ [responseTo s.config r]⟩ :=
  step_of_pending_cons h

/-- A step changes no parameter. -/
theorem config_of_step {s t : State} (h : step s = .next t) : t.config = s.config := by
  obtain ⟨-, rfl⟩ | ⟨r, rest, -, rfl⟩ := eq_of_step h <;> rfl

/-- As many steps as there are pending requests answer them all. -/
theorem runSteps_pending_length (s : State) : runSteps s.pending.length s = some s.answerAll := by
  obtain ⟨cfg, pending, answered, responses⟩ := s
  induction pending generalizing answered responses with
  | nil => simp [State.answerAll]
  | cons r rest ih => rw [List.length_cons, runSteps_succ _ (step_cons rfl), ih]; simp [State.answerAll]

/-- A request issued alone is answered by its response word. -/
theorem answersAlone_responseTo (cfg : Config) (r : Request) : AnswersAlone cfg r (responseTo cfg r) :=
  ⟨_, step_cons rfl, rfl⟩

/-- Settles O25: a step leaves the logs, or appends a request and its response word to them. -/
theorem stepKeepsLogCoherent : Obligations.StepKeepsLogCoherent := by
  intro s t hcoherent hstep
  obtain ⟨-, rfl⟩ | ⟨r, rest, -, rfl⟩ := eq_of_step hstep
  · exact hcoherent
  · exact List.rel_append hcoherent (.cons (answersAlone_responseTo s.config r) .nil)

/-- In wrap mode the overflow test does not fail, so no request is answered NumericOverflow (60_exceptions R103). -/
theorem answerOfRequest_ne_numericOverflow {cfg : Config} (hwrap : cfg.strictOverflow = false) (r : Request) :
    answerOfRequest cfg r ≠ .error .numericOverflow := by
  unfold answerOfRequest
  cases decode r with
  | error e => simp
  | ok i =>
    cases i with
    | enc w => simp [answerOf]
    | rev c => simp [answerOf]
    | fwd d =>
      by_cases hd : 84 < d.toNat
      · simp [answerOf, hd]
      · obtain ⟨hlt, hread⟩ | ⟨hge, hread⟩ := fwdRom_cases cfg (fwdAddrOfOperand d cfg.fwdAddrBits) <;>
          simp [answerOf, hd, hread]
    | dec c0 c1 c2 c3 c4 =>
      refine mt (answerOf_dec_eq_numericOverflow_iff cfg ⟨c0, c1, c2, c3, c4⟩).1 fun hover => ?_
      obtain ⟨i, x, he, -⟩ | ⟨-, hstrict, -⟩ := decGroup_error_cases cfg hover
      · simp at he
      · simp [hwrap] at hstrict

/-- Settles O26: the only response a step appends is the word of an answer. -/
theorem stepKeepsLogShaped : Obligations.StepKeepsLogShaped := by
  intro s t hshaped hstep
  obtain ⟨-, rfl⟩ | ⟨r, rest, -, rfl⟩ := eq_of_step hstep
  · exact hshaped
  · refine List.forall_mem_append.2 ⟨hshaped, List.forall_mem_singleton.2 ⟨responseShape_packAnswer _, fun hwrap => ?_⟩⟩
    exact mt rspStatus_packAnswer_eq_three_iff.1 (answerOfRequest_ne_numericOverflow hwrap r)

/-- Settles O27: no request has been logged and no response given. -/
theorem resetIsSafe : Obligations.ResetIsSafe :=
  ⟨.nil, fun _ hw => absurd hw List.not_mem_nil⟩

/-- Settles O2: `exec` gives the response word of the request, the answer to which is the answer of its operation. -/
theorem stepRunsDecodedRequest : Obligations.StepRunsDecodedRequest := by
  intro s r rest i hpending hdecode
  rw [step_of_pending_cons hpending, exec_eq, answerOfRequest, hdecode]
  rfl

/-- Settles O4: a step takes a request if one is pending and does nothing otherwise. -/
theorem idleStepChangesNothing : Obligations.IdleStepChangesNothing := by
  intro s hnil
  obtain ⟨-, hstep⟩ | ⟨r, rest, hcons, -⟩ := step_cases s
  · exact hstep
  · simp [hnil] at hcons

/-- A table word that decodes is a request word of at most 42 bits that decodes (log 10). -/
theorem decode_of_decodeTableWord {nbits w : Nat} {i : Instr} (h : decodeTableWord nbits w = some i) :
    requestOfTableWord nbits w = some (BitVec.ofNat 42 (w % 2 ^ nbits)) ∧
      decode (BitVec.ofNat 42 (w % 2 ^ nbits)) = .ok i := by
  unfold decodeTableWord requestOfTableWord at h
  by_cases hw : w % 2 ^ nbits < 2 ^ 42
  · rw [if_pos hw] at h
    refine ⟨if_pos hw, ?_⟩
    cases hd : decode (BitVec.ofNat 42 (w % 2 ^ nbits)) with
    | ok j => simpa [hd] using h
    | error e => simp [hd] at h
  · rw [if_neg hw] at h
    cases h

/-- Settles O3: the word stands first among the pending requests, and a step runs the operation it decodes to. -/
theorem tableWordRunsNext : Obligations.TableWordRunsNext := by
  intro s nbits w i htable
  obtain ⟨hrequest, hdecode⟩ := decode_of_decodeTableWord htable
  rw [State.withFetchWord, hrequest]
  exact stepRunsDecodedRequest _ _ s.pending i rfl hdecode

/-- Settles O20: the response is the word of the answer, which reads the parameters only. -/
theorem execGivesOneResponseFromParameters : Obligations.ExecGivesOneResponseFromParameters := by
  intro i cfg
  refine ⟨packAnswer (answerOf cfg i), fun s hs => ?_⟩
  rw [exec_eq, hs, respond, hs]

/-- Settles O21: a step with a request presented appends the request and its response word to the logs. -/
theorem everyRequestAnsweredOnce : Obligations.EveryRequestAnsweredOnce :=
  fun _ _ _ hpending => ⟨_, step_cons hpending⟩

/-- Settles O22, by induction on the number of steps. -/
theorem parametersNeverChange : Obligations.ParametersNeverChange := by
  intro k
  induction k with
  | zero =>
    intro s t hrun
    rw [Option.some.inj hrun]
  | succ k ih =>
    intro s t hrun
    cases hstep : step s with
    | next u =>
      rw [runSteps_succ k hstep] at hrun
      exact (ih u t hrun).trans (config_of_step hstep)
    | fault f => simp [runSteps, hstep] at hrun
    | refused f => simp [runSteps, hstep] at hrun

/-- Settles O23: the run answers all pending requests, each with its response word, which is the one it gets alone. -/
theorem runAnswersEachRequestAsAlone : Obligations.RunAnswersEachRequestAsAlone := by
  intro s
  refine ⟨s.answerAll, s.pending.map (responseTo s.config), runSteps_pending_length s, rfl, rfl, rfl, rfl, ?_⟩
  exact List.forall₂_map_right_iff.2 (List.forall₂_same.2 fun r _ => answersAlone_responseTo s.config r)

/-- A list of requests run from empty logs is paired, in order, with the response words. -/
theorem zip_logs_of_runSteps {cfg : Config} {ps : List Request} {t : State}
    (h : runSteps ps.length ⟨cfg, ps, [], []⟩ = some t) :
    t.answered.zip t.responses = ps.map fun r => (r, responseTo cfg r) := by
  have hrun : runSteps ps.length ⟨cfg, ps, [], []⟩ = some _ := runSteps_pending_length ⟨cfg, ps, [], []⟩
  obtain rfl := Option.some.inj (hrun.symm.trans h)
  simp only [answerAll_answered, answerAll_responses, List.nil_append]
  simpa using List.zip_map' (f := id) (g := responseTo cfg) (l := ps)

/-- Settles O24: the pairs are the requests with their response words, in the order of the requests. -/
theorem requestOrderUnobservable : Obligations.RequestOrderUnobservable := by
  intro cfg ps qs t u hperm ht hu
  rw [zip_logs_of_runSteps ht, zip_logs_of_runSteps hu]
  exact hperm.map _

end Sys2Proof.Machine
end

section
/-! PROOFS. 40_alphabet_roms, 41_encoder, 42_decoder: the response of each operation, and of the request word that carries
it. -/

namespace Sys2Proof.Machine

/-- An operation that answers OK gives its result as the response number. -/
theorem exec_of_answerOf_ok {i : Instr} {s : State} {f : Field40} (h : answerOf s.config i = .ok f) :
    exec i s = .next (s.withResponse f.toNat) := by
  rw [exec_eq_withResponse_iff, h, packAnswer_ok]

/-- The word of DigitRange: status 4 and zeros (60_exceptions R100). -/
theorem packAnswer_digitRange : packAnswer (.error .digitRange) = BitVec.ofNat 54 (4 * 2 ^ 51) := by
  decide

/-- The word of InvalidCharacter: status 2, the position and the code unit (30_encoding R45). -/
theorem packAnswer_invalidCharacter (i : Fin 5) (x : Byte) :
    packAnswer (.error (.invalidCharacter i x)) = BitVec.ofNat 54 (2 * 2 ^ 51 + i.val * 2 ^ 48 + x.toNat * 2 ^ 40) := by
  have := x.isLt
  apply BitVec.eq_of_toNat_eq
  simp only [packAnswer, responseWord_toNat, Error.status, Status.code, Error.pos, Error.val, BitVec.toNat_ofNat,
    BitVec.ofNat_eq_ofNat]
  omega

/-- The result of `DEC` is the group value as a number (30_encoding R46). -/
theorem packWord_toNat (w : GroupWord) : (packWord w).toNat = w.toNat := by
  have := w.isLt
  rw [packWord, BitVec.toNat_setWidth]
  omega

/-- The result of `FWD` is the character as a number (30_encoding R46). -/
theorem packChar_toNat (c : Byte) : (packChar c).toNat = c.toNat := by
  have := c.isLt
  rw [packChar, BitVec.toNat_setWidth]
  omega

section
variable {cfg : Config} {g : Chunk Byte}

/-- `DEC` of a group that decodes. -/
theorem answerOf_dec_of_ok {w : GroupWord} (h : decGroup cfg g = .ok w) :
    answerOf cfg (.dec g.c0 g.c1 g.c2 g.c3 g.c4) = .ok (packWord w) := by
  simp [answerOf, h]

/-- `DEC` of a group that does not decode. -/
theorem answerOf_dec_of_error {e : DecError} (h : decGroup cfg g = .error e) :
    answerOf cfg (.dec g.c0 g.c1 g.c2 g.c3 g.c4) = .error e.toError := by
  simp [answerOf, h]

end

/-- Settles O11: `ENC` packs the characters of the digits, which are the quotients and remainders of 41_encoder R71. -/
theorem encAnswersDigitCharacters : Obligations.EncAnswersDigitCharacters := by
  intro s w
  refine ⟨(encDigits w).c0, (encDigits w).c1, (encDigits w).c2, (encDigits w).c3, (encDigits w).c4, rfl, rfl, rfl, rfl,
    rfl, (exec_of_answerOf_ok rfl).trans ?_⟩
  rw [packChars_toNat]
  rfl

/-- Settles O12: the digits of a canonical group spell the group value itself. -/
theorem decAnswersGroupValue : Obligations.DecAnswersGroupValue := by
  intro s g hL hlt
  have hdec := answerOf_dec_of_ok ((decGroup_digits hL g).trans (narrowAcc_of_lt s.config hlt))
  have hexec := exec_of_answerOf_ok hdec
  rwa [packWord_toNat, BitVec.toNat_ofNat, Nat.mod_eq_of_lt hlt] at hexec

/-- Settles O13: the overflow test rejects the number the digits spell in strict mode, and takes it modulo 2^32 in wrap
mode. -/
theorem decAnswersOverflowByMode : Obligations.DecAnswersOverflowByMode := by
  refine fun s g hL hge => ⟨fun hstrict => ?strict, fun hwrap => ?wrap⟩
  case strict =>
    have hdec := answerOf_dec_of_error ((decGroup_digits hL g).trans (narrowAcc_of_strict hstrict hge))
    exact (exec_eq_withResponse_iff _ _ _).2 ((congrArg packAnswer hdec).trans packAnswer_numericOverflow)
  case wrap =>
    have hdec := answerOf_dec_of_ok ((decGroup_digits hL g).trans (narrowAcc_of_wrap hwrap))
    have hexec := exec_of_answerOf_ok hdec
    rwa [packWord_toNat, toNat_ofNat_value_of_overflow hge] at hexec

/-- Settles O14: the fold stops at the first invalid character, whatever comes after it. -/
theorem decAnswersFirstInvalidCharacter : Obligations.DecAnswersFirstInvalidCharacter := by
  intro s g i x hat hx hbefore
  obtain ⟨hlt, -⟩ := List.getElem?_eq_some_iff.1 hat
  have hdec := answerOf_dec_of_error (decGroup_of_firstInvalid s.config (i := ⟨i, hlt⟩) ⟨hat, hx, hbefore⟩)
  exact (exec_eq_withResponse_iff _ _ _).2 ((congrArg packAnswer hdec).trans (packAnswer_invalidCharacter _ x))

section
variable (cfg : Config)

/-- `FWD` of a digit (40_alphabet_roms R66). -/
theorem answerOf_fwd_of_lt (hw : 7 ≤ cfg.fwdAddrBits) {d : BitVec 7} (h : d.toNat < 85) :
    answerOf cfg (.fwd d) = .ok (packChar (cfg.digitToChar ⟨d.toNat, h⟩)) := by
  rw [answerOf_fwd cfg hw, dif_pos h]

/-- `FWD` of a number from 85 on (40_alphabet_roms R66). -/
theorem answerOf_fwd_of_ge {d : BitVec 7} (h : 85 ≤ d.toNat) : answerOf cfg (.fwd d) = .error .digitRange :=
  if_pos (by omega)

end

section
variable {cfg : Config}

/-- `REV` of an alphabet character (40_alphabet_roms R67). -/
theorem answerOf_rev_digitToChar (hL : cfg.Legal) (d : Digit) :
    answerOf cfg (.rev (cfg.digitToChar d)) = .ok (BitVec.ofNat 40 d.val) := by
  rw [answerOf_rev cfg hL.revWordBits, revNumber_digitToChar hL]

/-- `REV` of a code unit outside the alphabet (40_alphabet_roms R67). -/
theorem answerOf_rev_of_invalid (hw : 9 ≤ cfg.revWordBits) {c : Byte} (h : ∀ d : Digit, cfg.digitToChar d ≠ c) :
    answerOf cfg (.rev c) = .ok (BitVec.ofNat 40 256) := by
  rw [answerOf_rev cfg hw, (revNumber_eq_256_iff cfg).2 ((charToDigit_eq_none_iff cfg).2 h)]

/-- A digit fits the result field. -/
theorem ofNat_digit_toNat (d : Digit) : (BitVec.ofNat 40 d.val).toNat = d.val :=
  toNat_ofNat_of_wide (k := 7) (by decide) (by omega)

end

/-- Settles O16: the digit of the operand is compared with 85 before the forward table is read. -/
theorem fwdAnswersCharacterOrDigitRange : Obligations.FwdAnswersCharacterOrDigitRange := by
  refine fun s d => ⟨fun hlt hw => ?character, fun hge => ?digitRange⟩
  case character => rw [exec_of_answerOf_ok (answerOf_fwd_of_lt s.config hw hlt), packChar_toNat]
  case digitRange => rw [exec_eq_withResponse_iff, answerOf_fwd_of_ge s.config hge, packAnswer_digitRange]

/-- Settles O17: the reverse table holds the digit of an alphabet character and the marker for any other code unit. -/
theorem revAnswersTableWord : Obligations.RevAnswersTableWord := by
  refine ⟨fun s d hL => ?digit, fun s c hw hno => ?marker⟩
  case digit => rw [exec_of_answerOf_ok (answerOf_rev_digitToChar hL d), ofNat_digit_toNat]
  case marker => rw [exec_of_answerOf_ok (answerOf_rev_of_invalid hw hno)]; rfl

/-- Settles O54: the answers of `FWD` and `REV` are the same for all widths that hold the tables, and the encoder and the
decoder do not read the widths. -/
theorem widerRomsAnswerTheSame : Obligations.WiderRomsAnswerTheSame := by
  refine ⟨fun cfg a => fwdRom_empty cfg, fun i cfg fwdAddrBits revWordBits hf hr hf' hr' =>
    ⟨packAnswer (answerOf cfg i), fun s => ⟨fun hs => ?same, fun hs => ?wider⟩⟩⟩
  case same => rw [exec_eq, hs, respond, hs]
  case wider =>
    have hanswer : answerOf { cfg with fwdAddrBits := fwdAddrBits, revWordBits := revWordBits } i = answerOf cfg i := by
      cases i with
      | enc w => rfl
      | dec c0 c1 c2 c3 c4 => simp only [answerOf, decGroup_romWidths]
      | fwd d => rw [answerOf_fwd cfg hf, answerOf_fwd _ hf']; rfl
      | rev c => rw [answerOf_rev cfg hr, answerOf_rev _ hr']; rfl
    rw [exec_eq, hs, hanswer, respond, hs]

/-! ### Request words -/

/-- The answer to the word of an operation is the answer of the operation. -/
theorem answerOfRequest_encode (cfg : Config) (i : Instr) : answerOfRequest cfg (encode i) = answerOf cfg i := by
  rw [answerOfRequest, decode_encode]

/-- A step that takes a request with the response number `n`. -/
theorem step_eq_afterAnswer {s : State} {r : Request} {rest : List Request} {n : Nat} (hpending : s.pending = r :: rest)
    (hanswer : packAnswer (answerOfRequest s.config r) = BitVec.ofNat 54 n) : step s = .next (s.afterAnswer n) := by
  rw [step_of_pending_cons hpending, hanswer]
  simp [State.afterAnswer, hpending]

/-- The word with `op` 2 and an operand below 128 is that of `FWD`. -/
theorem encode_fwd_ofNat {n : Nat} (h : n < 128) : encode (.fwd (BitVec.ofNat 7 n)) = BitVec.ofNat 42 (2 * 2 ^ 40 + n) := by
  rw [encode_eq_ofNat]
  simp only [Instr.opNat, Instr.operandNat, BitVec.toNat_ofNat, Nat.mod_eq_of_lt h]

/-- The word with `op` 3 and an operand below 256 is that of `REV`. -/
theorem encode_rev_ofNat {n : Nat} (h : n < 256) : encode (.rev (BitVec.ofNat 8 n)) = BitVec.ofNat 42 (3 * 2 ^ 40 + n) := by
  rw [encode_eq_ofNat]
  simp only [Instr.opNat, Instr.operandNat, BitVec.toNat_ofNat, Nat.mod_eq_of_lt h]

/-- A word with reserved bits is answered IllegalRequest (30_encoding R48). -/
theorem packAnswer_of_hasReservedBits (cfg : Config) {r : Request} (h : HasReservedBits r) :
    packAnswer (answerOfRequest cfg r) = BitVec.ofNat 54 (5 * 2 ^ 51) := by
  obtain ⟨e, he⟩ := decode_error_of_hasReservedBits h
  rw [answerOfRequest_of_decode_error cfg he, packAnswer_illegalRequest]

/-- Settles O18: below 128 the word is that of a `FWD`; from 128 on a reserved bit is set. -/
theorem fwdRequestAnswered : Obligations.FwdRequestAnswered := by
  refine fun s rest n hn hpending => ⟨fun hlt hw => ?character, fun hge hle => ?digitRange, fun hge => ?reserved⟩
  all_goals refine step_eq_afterAnswer hpending ?_
  case character =>
    have hd : (BitVec.ofNat 7 n).toNat = n := Nat.mod_eq_of_lt (by omega)
    rw [← encode_fwd_ofNat (by omega), answerOfRequest_encode, answerOf_fwd_of_lt s.config hw (by omega), packAnswer_ok,
      packChar_toNat]
    simp only [hd]
  case digitRange =>
    have hd : (BitVec.ofNat 7 n).toNat = n := Nat.mod_eq_of_lt (by omega)
    rw [← encode_fwd_ofNat (by omega), answerOfRequest_encode, answerOf_fwd_of_ge s.config (by omega),
      packAnswer_digitRange]
  case reserved =>
    refine packAnswer_of_hasReservedBits s.config (.inr (.inl ?_))
    rw [BitVec.toNat_ofNat]
    omega

/-- Settles O19: below 256 the word is that of a `REV`; from 256 on a reserved bit is set. -/
theorem revRequestAnswered : Obligations.RevRequestAnswered := by
  refine fun s rest n hL hn hpending => ⟨fun d hd => ?digit, fun hlt hno => ?marker, fun hge => ?reserved⟩
  all_goals refine step_eq_afterAnswer hpending ?_
  case digit =>
    have hlt : n < 256 := hd ▸ (s.config.digitToChar d).isLt
    rw [← encode_rev_ofNat hlt, hd, BitVec.ofNat_toNat, BitVec.setWidth_eq, answerOfRequest_encode,
      answerOf_rev_digitToChar hL, packAnswer_ok, ofNat_digit_toNat]
  case marker =>
    have hinvalid (d : Digit) : s.config.digitToChar d ≠ BitVec.ofNat 8 n := fun h =>
      hno d (by rw [h, BitVec.toNat_ofNat, Nat.mod_eq_of_lt hlt])
    rw [← encode_rev_ofNat hlt, answerOfRequest_encode, answerOf_rev_of_invalid hL.revWordBits hinvalid, packAnswer_ok]
    rfl
  case reserved =>
    refine packAnswer_of_hasReservedBits s.config (.inr (.inr ?_))
    rw [BitVec.toNat_ofNat]
    omega

/-- The word with `op` 1 and five packed characters as operand is that of their `DEC`. -/
theorem encode_dec_packChars (g : Chunk Byte) :
    encode (.dec g.c0 g.c1 g.c2 g.c3 g.c4) = BitVec.ofNat 42 (2 ^ 40 + (packChars g).toNat) := by
  rw [encode_eq_ofNat, packChars_toNat]
  simp only [Instr.opNat, Instr.operandNat, Nat.one_mul]

/-- Settles O41: the result of `ENC` is the packed output of the encoder, and the decoder gives the group value back. -/
theorem encResultDecodesBack : Obligations.EncResultDecodesBack := by
  intro s rest w hL hpending
  have hresult : rspResult (responseTo s.config (encode (.enc w))) = packChars (encGroup s.config w) := by
    rw [responseTo, answerOfRequest_encode]
    exact rspResult_responseWord ..
  have hback : responseTo s.config (BitVec.ofNat 42 (2 ^ 40 + (packChars (encGroup s.config w)).toNat)) =
      BitVec.ofNat 54 w.toNat := by
    rw [← encode_dec_packChars, responseTo, answerOfRequest_encode, answerOf_dec_of_ok (decGroup_encGroup hL w),
      packAnswer_ok, packWord_toNat]
  refine ⟨_, _, _, step_cons hpending, rfl, step_cons rfl, ?_⟩
  rw [hresult, hback]
  exact List.append_assoc s.responses [_] [_]

end Sys2Proof.Machine
end

section
/-! PROOFS. 41_encoder, 42_decoder: the digits the encoder gives, which groups are its outputs, and the order of groups
with the default table. -/

namespace Sys2Proof.Machine

section
variable (w : GroupWord)

@[simp] theorem encDigits_c0_val : (encDigits w).c0.val = w.toNat / 52200625 := rfl
@[simp] theorem encDigits_c1_val : (encDigits w).c1.val = w.toNat / 614125 % 85 := rfl
@[simp] theorem encDigits_c2_val : (encDigits w).c2.val = w.toNat / 7225 % 85 := rfl
@[simp] theorem encDigits_c3_val : (encDigits w).c3.val = w.toNat / 85 % 85 := rfl
@[simp] theorem encDigits_c4_val : (encDigits w).c4.val = w.toNat % 85 := rfl

/-- The leading digit of a group value (41_encoder R73). -/
theorem encDigits_c0_le : (encDigits w).c0.val ≤ 82 := by
  have := w.isLt
  rw [encDigits_c0_val]
  omega

/-- A leading quotient and four digits that spell the value are the encoder's digits (41_encoder R75). -/
theorem eq_encDigits_of_spell {d0 : Nat} {d1 d2 d3 d4 : Digit}
    (h : w.toNat = d0 * 85 ^ 4 + d1.val * 85 ^ 3 + d2.val * 85 ^ 2 + d3.val * 85 + d4.val) :
    d0 = (encDigits w).c0.val ∧ d1 = (encDigits w).c1 ∧ d2 = (encDigits w).c2 ∧ d3 = (encDigits w).c3 ∧
      d4 = (encDigits w).c4 := by
  have hlt := w.isLt
  have hd0 : d0 < 85 := by omega
  have hvalue : (Chunk.mk ⟨d0, hd0⟩ d1 d2 d3 d4 : Chunk Digit) = encDigits w :=
    chunk_value_injective (h.symm.trans (encDigits_value w).symm)
  rw [← hvalue]
  exact ⟨rfl, rfl, rfl, rfl, rfl⟩

/-- The digits from the least significant end, each the remainder of the quotient before (41_encoder R75). -/
theorem encDigits_from_least :
    (encDigits w).c4.val = w.toNat % 85 ∧ (encDigits w).c3.val = w.toNat / 85 % 85 ∧
      (encDigits w).c2.val = w.toNat / 85 / 85 % 85 ∧ (encDigits w).c1.val = w.toNat / 85 / 85 / 85 % 85 ∧
      (encDigits w).c0.val = w.toNat / 85 / 85 / 85 / 85 := by
  simp only [Nat.div_div_eq_div_mul]
  exact ⟨rfl, rfl, rfl, rfl, rfl⟩

/-- The digits from the most significant end, each the quotient of the remainder before (41_encoder R75). -/
theorem encDigits_from_most :
    (encDigits w).c0.val = w.toNat / 85 ^ 4 ∧ (encDigits w).c1.val = w.toNat % 85 ^ 4 / 85 ^ 3 ∧
      (encDigits w).c2.val = w.toNat % 85 ^ 4 % 85 ^ 3 / 85 ^ 2 ∧
      (encDigits w).c3.val = w.toNat % 85 ^ 4 % 85 ^ 3 % 85 ^ 2 / 85 ∧
      (encDigits w).c4.val = w.toNat % 85 ^ 4 % 85 ^ 3 % 85 ^ 2 % 85 := by
  rw [Nat.mod_mod_of_dvd _ (show 85 ^ 3 ∣ 85 ^ 4 by decide), Nat.mod_mod_of_dvd _ (show 85 ^ 2 ∣ 85 ^ 3 by decide),
    Nat.mod_mod_of_dvd _ (show 85 ∣ 85 ^ 2 by decide)]
  refine ⟨rfl, ?_, ?_, ?_, ?_⟩ <;> simp only [encDigits_c1_val, encDigits_c2_val, encDigits_c3_val, encDigits_c4_val] <;>
    omega

end

/-- Settles O33: five digits are determined by the number they spell, and the other two ways take the same quotients and
remainders. -/
theorem encDigitsSpellValue : Obligations.EncDigitsSpellValue :=
  fun w => ⟨encDigits_value w, fun _ _ _ _ _ => eq_encDigits_of_spell w, encDigits_from_least w, encDigits_from_most w⟩

section
variable {cfg : Config}

/-- In a legal alphabet only a leading digit `d` gives the leading character of `d` (41_encoder R73). -/
theorem encGroup_c0_ne (hL : cfg.Legal) (w : GroupWord) {d : Digit} (hd : 82 < d.val) :
    (encGroup cfg w).c0 ≠ cfg.digitToChar d := by
  intro h
  have hle := encDigits_c0_le w
  rw [hL.injective _ _ h] at hle
  omega

/-- The encoder gives characters of the set of R60 only (41_encoder R76 (a)). -/
theorem isSymbol_of_mem_encGroup (hL : cfg.Legal) {w : GroupWord} {c : Byte} (h : c ∈ (encGroup cfg w).toList) :
    isSymbol c = true := by
  rw [encGroup, chunk_toList_map] at h
  obtain ⟨d, -, hd⟩ := List.mem_map.1 h
  exact (hL.range c).1 ⟨d, hd⟩

/-- A group of alphabet characters is an output of the encoder exactly when it is canonical (41_encoder R76 (c)). -/
theorem exists_encGroup_eq_iff (hL : cfg.Legal) (g : Chunk Digit) :
    (∃ w : GroupWord, encGroup cfg w = g.map cfg.digitToChar) ↔ g.value < 2 ^ 32 := by
  simp only [encGroup_eq_map_iff hL]
  refine ⟨fun ⟨w, hw⟩ => hw ▸ w.isLt, fun h => ⟨BitVec.ofNat 32 g.value, ?_⟩⟩
  rw [BitVec.toNat_ofNat, Nat.mod_eq_of_lt h]

end

/-- Settles O34: 83 × 85^4 is more than 2^32. -/
theorem leadingDigitAtMost82 : Obligations.LeadingDigitAtMost82 := by
  refine ⟨fun w => ⟨encDigits_c0_le w, rfl⟩, rfl, fun cfg w hL => ⟨?digit83, ?digit84⟩, fun w => ⟨?y, ?z⟩⟩
  case digit83 => exact encGroup_c0_ne hL w (by decide)
  case digit84 => exact encGroup_c0_ne hL w (by decide)
  case y => exact encGroup_c0_ne (d := 83) defaultConfig_legal w (by decide)
  case z => exact encGroup_c0_ne (d := 84) defaultConfig_legal w (by decide)

/-- Settles O35: the encoder's output determines the value, since the decoder gives it back. -/
theorem encoderImageIsCanonicalGroups : Obligations.EncoderImageIsCanonicalGroups := by
  refine fun cfg hL => ⟨fun w c => isSymbol_of_mem_encGroup hL, fun v w h => ?_, exists_encGroup_eq_iff hL⟩
  have hv := decGroup_encGroup hL v
  rw [h, decGroup_encGroup hL w] at hv
  exact (Except.ok.inj hv).symm

/-! ### The order of groups -/

/-- Two numbers of two places compare by the upper place first. -/
theorem cmp_mul_add {b x y c d : Nat} (hc : c < b) (hd : d < b) :
    cmp (x * b + c) (y * b + d) = (cmp x y).then (cmp c d) := by
  have hlt {x y c d : Nat} (hc : c < b) (hxy : x < y) : x * b + c < y * b + d := by
    have := Nat.mul_le_mul_right b (Nat.succ_le_of_lt hxy)
    rw [Nat.succ_mul] at this
    omega
  obtain hxy | rfl | hxy := Nat.lt_trichotomy x y
  · rw [(cmp_eq_lt_iff _ _).2 (hlt hc hxy), (cmp_eq_lt_iff x y).2 hxy]
    rfl
  · rw [cmp_self_eq_eq]
    exact cmp_add_left (x * b) c d
  · rw [(cmp_eq_gt_iff _ _).2 (hlt hd hxy), (cmp_eq_gt_iff x y).2 hxy]
    rfl

/-- The number of five places in the base `b`, the first place uppermost. -/
def numberInBase (b : Nat) (g : Chunk Nat) : Nat := (((g.c0 * b + g.c1) * b + g.c2) * b + g.c3) * b + g.c4

/-- The comparison of five places in lexicographic order. -/
def cmpPlaces (g h : Chunk Nat) : Ordering :=
  ((((cmp g.c0 h.c0).then (cmp g.c1 h.c1)).then (cmp g.c2 h.c2)).then (cmp g.c3 h.c3)).then (cmp g.c4 h.c4)

/-- The order of numbers of five places is the lexicographic one. -/
theorem cmp_numberInBase {b : Nat} {g h : Chunk Nat} (hg : ∀ x ∈ g.toList, x < b) (hh : ∀ x ∈ h.toList, x < b) :
    cmp (numberInBase b g) (numberInBase b h) = cmpPlaces g h := by
  simp only [Chunk.toList, List.forall_mem_cons] at hg hh
  obtain ⟨-, hg1, hg2, hg3, hg4, -⟩ := hg
  obtain ⟨-, hh1, hh2, hh3, hh4, -⟩ := hh
  rw [numberInBase, numberInBase, cmp_mul_add hg4 hh4, cmp_mul_add hg3 hh3, cmp_mul_add hg2 hh2, cmp_mul_add hg1 hh1,
    cmpPlaces]

/-- A strictly increasing function on the places keeps their order. -/
theorem cmpPlaces_map {f : Digit → Nat} (hf : StrictMono f) (g h : Chunk Digit) :
    cmpPlaces (g.map f) (h.map f) = cmpPlaces (g.map Fin.val) (h.map Fin.val) := by
  simp only [cmpPlaces, Chunk.map, hf.cmp_map_eq, Fin.val_strictMono.cmp_map_eq]

/-- A group's digits spell its value in base 85. -/
theorem chunk_value_eq_numberInBase (g : Chunk Digit) : g.value = numberInBase 85 (g.map Fin.val) := by
  simp only [Chunk.value, numberInBase, Chunk.map]
  ring

/-- The packed field of five code units is the number they spell in base 256. -/
theorem packChars_toNat_eq_numberInBase (g : Chunk Byte) :
    (packChars g).toNat = numberInBase 256 (g.map BitVec.toNat) := by
  simp only [packChars_toNat, numberInBase, Chunk.map]
  ring

/-- The default table is ascending (40_alphabet_roms R61; log 2). -/
theorem default_digitToChar_strictMono : StrictMono fun d : Digit => (defaultConfig.digitToChar d).toNat :=
  Fin.strictMono_iff_lt_succ.2 (by decide)

/-- With the default table the packed characters of two groups of digits are in the order of the numbers the digits
spell. -/
theorem packChars_default_lt_iff (g h : Chunk Digit) :
    (packChars (g.map defaultConfig.digitToChar)).toNat < (packChars (h.map defaultConfig.digitToChar)).toNat ↔
      g.value < h.value := by
  have hvalue (g : Chunk Digit) : ∀ x ∈ (g.map Fin.val).toList, x < 85 := by
    simp [chunk_toList_map]
  have hchars (g : Chunk Digit) :
      ∀ x ∈ (g.map fun d => (defaultConfig.digitToChar d).toNat).toList, x < 256 := by
    rw [chunk_toList_map]
    exact List.forall_mem_map.2 fun d _ => (defaultConfig.digitToChar d).isLt
  rw [packChars_toNat_eq_numberInBase, packChars_toNat_eq_numberInBase, chunk_value_eq_numberInBase,
    chunk_value_eq_numberInBase]
  apply lt_iff_lt_of_cmp_eq_cmp
  rw [cmp_numberInBase (hvalue g) (hvalue h), ← cmpPlaces_map default_digitToChar_strictMono]
  exact cmp_numberInBase (hchars g) (hchars h)

/-- Settles O36: the encoder's digits spell the value. -/
theorem defaultEncoderKeepsOrder : Obligations.DefaultEncoderKeepsOrder := by
  intro v w
  rw [encGroup, encGroup, packChars_default_lt_iff, encDigits_value, encDigits_value]

/-- The packed output for the largest group value. -/
theorem packChars_default_largest :
    0x783C5B3021 = (packChars ((encDigits 0xFFFFFFFF).map defaultConfig.digitToChar)).toNat := by
  decide

/-- Settles O40: `x<[0!` is the output for the largest group value, which is the last one below 2^32. -/
theorem defaultOverflowingGroups : Obligations.DefaultOverflowingGroups := by
  intro g
  rw [packChars_default_largest, packChars_default_lt_iff, encDigits_value]
  exact Nat.lt_iff_add_one_le.symm

/-! ### The default parameters -/

/-- Settles O1: the default table is ascending and legal. -/
theorem resetHoldsDefaultParameters : Obligations.ResetHoldsDefaultParameters :=
  ⟨rfl, rfl, rfl, rfl, rfl, rfl, rfl, fun _ _ h => default_digitToChar_strictMono h,
    fun c => (defaultConfig_legal.range c).symm⟩

/-- The code units outside the set of R60, as ranges and single codes (40_alphabet_roms R63). -/
theorem isSymbol_eq_false_iff : ∀ c : Byte, isSymbol c = false ↔
    c.toNat ≤ 0x20 ∨ c.toNat ∈ [0x22, 0x26, 0x2C, 0x3B, 0x5C] ∨ 0x7B ≤ c.toNat := by
  decide

/-- Settles O32: the runs of the table, and the complement of the set of R60. -/
theorem defaultTables : Obligations.DefaultTables := by
  refine ⟨by decide, by decide, by decide, fun c => ?_⟩
  rw [← isSymbol_eq_false_iff, ← Bool.not_eq_true, ← charToDigit_ne_none_iff defaultConfig_legal, not_not]

end Sys2Proof.Machine
end

section
/-! PROOFS. 43_buffer_calls: a buffer as a list of group values, a text as a list of groups, and the calls over them. -/

namespace Sys2Proof.Machine

/-! ### Lists of whole groups -/

section
variable {α β : Type} {f : α → List β} {k : Nat}

/-- Pieces of one length `k`, put together: dropping `k` things for each of `n` pieces drops `n` pieces. -/
theorem drop_flatMap_of_length (hf : ∀ a, (f a).length = k) (l : List α) (n : Nat) :
    (l.flatMap f).drop (k * n) = (l.drop n).flatMap f := by
  induction n generalizing l with
  | zero => simp
  | succ n ih =>
    cases l with
    | nil => simp
    | cons a l =>
      rw [List.flatMap_cons, Nat.mul_succ, Nat.add_comm, ← List.drop_drop, List.drop_left' (hf a), ih,
        List.drop_succ_cons]

/-- Pieces of one length `k`, put together: taking `k` things for each of `n` pieces takes `n` pieces. -/
theorem take_flatMap_of_length (hf : ∀ a, (f a).length = k) (l : List α) (n : Nat) :
    (l.flatMap f).take (k * n) = (l.take n).flatMap f := by
  induction n generalizing l with
  | zero => simp
  | succ n ih =>
    cases l with
    | nil => simp
    | cons a l =>
      rw [List.flatMap_cons, Nat.mul_succ, Nat.add_comm, List.take_add, List.take_left' (hf a), List.drop_left' (hf a), ih,
        List.take_succ_cons, List.flatMap_cons]

/-- Pieces of one length `k`, put together, have `k` things each. -/
theorem length_flatMap_of_length (hf : ∀ a, (f a).length = k) (l : List α) : (l.flatMap f).length = k * l.length := by
  induction l with
  | nil => simp
  | cons a l ih => rw [List.flatMap_cons, List.length_append, hf, ih, List.length_cons, Nat.mul_succ, Nat.add_comm]

end

@[simp] theorem length_chunk_toList {α : Type} (c : Chunk α) : c.toList.length = 5 := rfl

@[simp] theorem length_bytesOfWord (w : GroupWord) : (bytesOfWord w).length = 4 := rfl

/-- A group is determined by its members. -/
theorem chunk_toList_injective {α : Type} : Function.Injective (Chunk.toList (α := α)) := by
  rintro ⟨a0, a1, a2, a3, a4⟩ ⟨b0, b1, b2, b3, b4⟩ h
  simpa [Chunk.toList] using h

/-- A text of whole groups is a list of groups. -/
theorem exists_chunks : ∀ t : List Byte, t.length % 5 = 0 → ∃ cs : List (Chunk Byte), t = cs.flatMap Chunk.toList
  | [], _ => ⟨[], rfl⟩
  | c0 :: c1 :: c2 :: c3 :: c4 :: rest, h => by
    obtain ⟨cs, rfl⟩ := exists_chunks rest (by simp only [List.length_cons] at h; omega)
    exact ⟨⟨c0, c1, c2, c3, c4⟩ :: cs, rfl⟩
  | [_], h | [_, _], h | [_, _, _], h | [_, _, _, _], h => by simp at h

/-- Joining the four bytes of a group value gives it back. -/
theorem wordOfBytes_bytes (w : GroupWord) :
    wordOfBytes (w.extractLsb' 24 8) (w.extractLsb' 16 8) (w.extractLsb' 8 8) (w.extractLsb' 0 8) = w := by
  have := w.isLt
  apply BitVec.eq_of_toNat_eq
  simp only [wordOfBytes_toNat, extractLsb'_toNat_div]
  omega

/-- A buffer of whole groups is a list of group values. -/
theorem exists_words : ∀ b : List Byte, b.length % 4 = 0 → ∃ ws : List GroupWord, b = ws.flatMap bytesOfWord
  | [], _ => ⟨[], rfl⟩
  | b0 :: b1 :: b2 :: b3 :: rest, h => by
    obtain ⟨ws, rfl⟩ := exists_words rest (by simp only [List.length_cons] at h; omega)
    exact ⟨wordOfBytes b0 b1 b2 b3 :: ws, by rw [List.flatMap_cons, bytesOfWord_wordOfBytes]; rfl⟩
  | [_], h | [_, _], h | [_, _, _], h => by simp at h

/-! ### The calls over lists of groups -/

section
variable (cfg : Config)

/-- The groups of a buffer are encoded one by one. -/
theorem encodeGroups_flatMap (ws : List GroupWord) :
    encodeGroups cfg (ws.flatMap bytesOfWord) = (ws.map (encGroup cfg)).flatMap Chunk.toList := by
  induction ws with
  | nil => rfl
  | cons w ws ih =>
    rw [List.flatMap_cons, bytesOfWord, List.map_cons, List.flatMap_cons, ← ih]
    simp only [List.cons_append, List.nil_append, encodeGroups_cons, wordOfBytes_bytes]

/-- `encode` of a list of group values. -/
theorem encodeCall_flatMap (ws : List GroupWord) :
    encodeCall cfg (ws.flatMap bytesOfWord) = .ok ((ws.map (encGroup cfg)).flatMap Chunk.toList) := by
  rw [encodeCall_of_even cfg (by rw [length_flatMap_of_length length_bytesOfWord]; omega), encodeGroups_flatMap]

/-- The groups `cs` all decode, to the group values `ws`. -/
def DecodeTo (cs : List (Chunk Byte)) (ws : List GroupWord) : Prop :=
  List.Forall₂ (fun c w => decGroup cfg c = .ok w) cs ws

/-- A group that decodes, before any other characters. -/
theorem decodeGroups_append_of_ok {c : Chunk Byte} {w : GroupWord} (h : decGroup cfg c = .ok w) (g : Nat)
    (rest : List Byte) :
    decodeGroups cfg g (c.toList ++ rest) = (decodeGroups cfg (g + 1) rest).map (bytesOfWord w ++ ·) := by
  cases hrest : decodeGroups cfg (g + 1) rest <;> simp [Chunk.toList, decodeGroups_cons_ok cfg h, hrest, Except.map]

/-- A group that does not decode, before any other characters. -/
theorem decodeGroups_append_of_error {c : Chunk Byte} {e : DecError} (h : decGroup cfg c = .error e) (g : Nat)
    (rest : List Byte) : decodeGroups cfg g (c.toList ++ rest) = .error (callError g e) :=
  decodeGroups_cons_error cfg h

/-- Groups that all decode. -/
theorem decodeGroups_of_decodeTo {cs : List (Chunk Byte)} {ws : List GroupWord} (h : DecodeTo cfg cs ws) (g : Nat) :
    decodeGroups cfg g (cs.flatMap Chunk.toList) = .ok (ws.flatMap bytesOfWord) := by
  induction h generalizing g with
  | nil => rfl
  | cons hgroup _ ih => rw [List.flatMap_cons, decodeGroups_append_of_ok cfg hgroup, ih]; rfl

/-- Groups that decode up to the first failing one, which decides the error (R94, R95). -/
theorem decodeGroups_of_first_error {cs : List (Chunk Byte)} {ws : List GroupWord} (h : DecodeTo cfg cs ws)
    {c : Chunk Byte} {e : DecError} (hgroup : decGroup cfg c = .error e) (post : List (Chunk Byte)) (g : Nat) :
    decodeGroups cfg g ((cs ++ c :: post).flatMap Chunk.toList) = .error (callError (g + cs.length) e) := by
  induction h generalizing g with
  | nil => exact decodeGroups_append_of_error cfg hgroup g _
  | @cons c' w cs ws hok _ ih =>
    rw [List.cons_append, List.flatMap_cons, decodeGroups_append_of_ok cfg hok, ih, List.length_cons, Nat.add_right_comm]
    rfl

/-- Everything the groups of a text can do: all decode, or there is a first one that does not. -/
theorem decodeTo_or_first_error (cs : List (Chunk Byte)) :
    (∃ ws : List GroupWord, DecodeTo cfg cs ws) ∨
    ∃ (pre post : List (Chunk Byte)) (ws : List GroupWord) (c : Chunk Byte) (e : DecError),
      cs = pre ++ c :: post ∧ DecodeTo cfg pre ws ∧ decGroup cfg c = .error e := by
  induction cs with
  | nil => exact .inl ⟨[], .nil⟩
  | cons c cs ih =>
    cases hgroup : decGroup cfg c with
    | error e => exact .inr ⟨[], cs, [], c, e, rfl, .nil, hgroup⟩
    | ok w =>
      obtain ⟨ws, hws⟩ | ⟨pre, post, ws, c', e, rfl, hpre, he⟩ := ih
      · exact .inl ⟨w :: ws, .cons hgroup hws⟩
      · exact .inr ⟨c :: pre, post, w :: ws, c', e, rfl, .cons hgroup hpre, he⟩

/-- `decode` of a list of groups starts with the group 0. -/
theorem decodeCall_flatMap (cs : List (Chunk Byte)) :
    decodeCall cfg (cs.flatMap Chunk.toList) = decodeGroups cfg 0 (cs.flatMap Chunk.toList) :=
  decodeCall_of_even cfg (by rw [length_flatMap_of_length length_chunk_toList]; omega)

/-- `decode` of groups that all decode. -/
theorem decodeCall_of_decodeTo {cs : List (Chunk Byte)} {ws : List GroupWord} (h : DecodeTo cfg cs ws) :
    decodeCall cfg (cs.flatMap Chunk.toList) = .ok (ws.flatMap bytesOfWord) :=
  (decodeCall_flatMap cfg cs).trans (decodeGroups_of_decodeTo cfg h 0)

/-- `decode` of groups the first failing one of which is `c`. -/
theorem decodeCall_of_first_error {pre post : List (Chunk Byte)} {ws : List GroupWord} {c : Chunk Byte} {e : DecError}
    (h : DecodeTo cfg pre ws) (hgroup : decGroup cfg c = .error e) :
    decodeCall cfg ((pre ++ c :: post).flatMap Chunk.toList) = .error (callError pre.length e) := by
  rw [decodeCall_flatMap, decodeGroups_of_first_error cfg h hgroup, Nat.zero_add]

/-- A text for which `decode` does not raise the length error is one of whole groups (R92). -/
theorem length_mod_of_decodeCall_ne {t : List Byte} (h : decodeCall cfg t ≠ .error .invalidLength) : t.length % 5 = 0 :=
  not_not.1 (mt (decodeCall_eq_invalidLength_iff cfg t).2 h)

/-- A text that decodes is a list of groups that all decode. -/
theorem exists_decodeTo_of_decodeCall_ok {t b : List Byte} (h : decodeCall cfg t = .ok b) :
    ∃ (cs : List (Chunk Byte)) (ws : List GroupWord), t = cs.flatMap Chunk.toList ∧ b = ws.flatMap bytesOfWord ∧
      DecodeTo cfg cs ws := by
  obtain ⟨cs, rfl⟩ := exists_chunks t (length_mod_of_decodeCall_ne cfg (by simp [h]))
  obtain ⟨ws, hws⟩ | ⟨pre, post, ws, c, e, rfl, hpre, he⟩ := decodeTo_or_first_error cfg cs
  · exact ⟨cs, ws, rfl, (Except.ok.inj ((decodeCall_of_decodeTo cfg hws).symm.trans h)).symm, hws⟩
  · cases (decodeCall_of_first_error cfg hpre he).symm.trans h

/-- A text of whole groups that does not decode has a first group that does not. -/
theorem exists_first_error_of_decodeCall_error {t : List Byte} {e : CallError} (h : decodeCall cfg t = .error e)
    (heven : t.length % 5 = 0) :
    ∃ (pre post : List (Chunk Byte)) (ws : List GroupWord) (c : Chunk Byte) (e' : DecError),
      t = (pre ++ c :: post).flatMap Chunk.toList ∧ DecodeTo cfg pre ws ∧ decGroup cfg c = .error e' ∧
      e = callError pre.length e' := by
  obtain ⟨cs, rfl⟩ := exists_chunks t heven
  obtain ⟨ws, hws⟩ | ⟨pre, post, ws, c, e', rfl, hpre, he'⟩ := decodeTo_or_first_error cfg cs
  · simp [decodeCall_of_decodeTo cfg hws] at h
  · exact ⟨pre, post, ws, c, e', rfl, hpre, he',
      (Except.error.inj ((decodeCall_of_first_error cfg hpre he').symm.trans h)).symm⟩

end

/-! ### The characters of a text -/

section
variable {cfg : Config}

/-- A group that decodes holds characters of the set of R60 only. -/
theorem isSymbol_of_decGroup_ok (hL : cfg.Legal) {c : Chunk Byte} {w : GroupWord} (h : decGroup cfg c = .ok w) {x : Byte}
    (hx : x ∈ c.toList) : isSymbol x = true := by
  obtain ⟨d, rfl⟩ := exists_digits_of_decGroup_ok cfg h
  rw [chunk_toList_map] at hx
  obtain ⟨d, -, hd⟩ := List.mem_map.1 hx
  exact (hL.range x).1 ⟨d, hd⟩

/-- So does a list of groups that decode. -/
theorem isSymbol_of_decodeTo (hL : cfg.Legal) {cs : List (Chunk Byte)} {ws : List GroupWord} (h : DecodeTo cfg cs ws)
    {x : Byte} (hx : x ∈ cs.flatMap Chunk.toList) : isSymbol x = true := by
  induction h with
  | nil => simp at hx
  | cons hgroup _ ih =>
    rw [List.flatMap_cons, List.mem_append] at hx
    exact hx.elim (isSymbol_of_decGroup_ok hL hgroup) ih

/-- The first invalid character of a group is outside the set of R60, and those before it are in it. -/
theorem isSymbol_of_firstInvalid (hL : cfg.Legal) {c : Chunk Byte} {i : Nat} {x : Byte} (h : FirstInvalid cfg c i x) :
    c.toList[i]? = some x ∧ isSymbol x = false ∧
      ∀ (j : Nat) (y : Byte), j < i → c.toList[j]? = some y → isSymbol y = true := by
  obtain ⟨hat, hno, hbefore⟩ := h
  refine ⟨hat, ?_, fun j y hj hy => (hL.range y).1 (hbefore j y hj hy)⟩
  rw [← Bool.not_eq_true, ← hL.range x]
  exact not_exists.2 hno

/-- In strict mode a group that decodes is the output of the encoder for its value (42_decoder R88). -/
theorem encGroup_of_decGroup_strict (hL : cfg.Legal) (hstrict : cfg.strictOverflow = true) {c : Chunk Byte}
    {w : GroupWord} (h : decGroup cfg c = .ok w) : encGroup cfg w = c := by
  obtain ⟨d, rfl⟩ := exists_digits_of_decGroup_ok cfg h
  rw [decGroup_digits hL] at h
  obtain ⟨-, -, herr⟩ | ⟨hfits, hok⟩ := narrowAcc_cases cfg d.value
  · simp [herr] at h
  · obtain rfl := Except.ok.inj (hok.symm.trans h)
    have hlt : d.value < 2 ^ 32 := Nat.lt_of_not_le fun hge => hfits ⟨hge, hstrict⟩
    rw [encGroup_eq_map_iff hL, BitVec.toNat_ofNat, Nat.mod_eq_of_lt hlt]

/-- The outputs of the encoder decode to the values encoded. -/
theorem decodeTo_map_encGroup (hL : cfg.Legal) (ws : List GroupWord) : DecodeTo cfg (ws.map (encGroup cfg)) ws :=
  List.forall₂_map_left_iff.2 (List.forall₂_same.2 fun w _ => decGroup_encGroup hL w)

/-- In strict mode groups that decode are the outputs of the encoder. -/
theorem eq_map_encGroup_of_decodeTo_strict (hL : cfg.Legal) (hstrict : cfg.strictOverflow = true)
    {cs : List (Chunk Byte)} {ws : List GroupWord} (h : DecodeTo cfg cs ws) : cs = ws.map (encGroup cfg) := by
  induction h with
  | nil => rfl
  | cons hgroup _ ih => rw [List.map_cons, encGroup_of_decGroup_strict hL hstrict hgroup, ← ih]

/-- A text is canonical exactly when it is a list of outputs of the encoder (41_encoder R76 (c)). -/
theorem canonicalText_iff (hL : cfg.Legal) (t : List Byte) :
    CanonicalText cfg t ↔ ∃ ws : List GroupWord, t = (ws.map (encGroup cfg)).flatMap Chunk.toList := by
  constructor
  · rintro ⟨gs, rfl, hgs⟩
    refine ⟨gs.map fun g => BitVec.ofNat 32 g.value, ?_⟩
    have hgroup : ∀ g ∈ gs, encGroup cfg (BitVec.ofNat 32 g.value) = g.map cfg.digitToChar := fun g hg => by
      rw [encGroup_eq_map_iff hL, BitVec.toNat_ofNat, Nat.mod_eq_of_lt (hgs g hg)]
    rw [List.map_map, List.flatMap_map]
    exact List.flatMap_congr fun g hg => congrArg Chunk.toList (hgroup g hg).symm
  · rintro ⟨ws, rfl⟩
    refine ⟨ws.map encDigits, ?_, List.forall_mem_map.2 fun w _ => (encDigits_value w).symm ▸ w.isLt⟩
    rw [List.flatMap_map, List.flatMap_map]
    rfl

end

/-! ### The statements -/

/-- Settles O43: the buffer is a list of group values, and the text the list of their groups. -/
theorem encodeCallGroupByGroup : Obligations.EncodeCallGroupByGroup := by
  intro cfg b heven
  obtain ⟨ws, rfl⟩ := exists_words b heven
  refine ⟨_, encodeCall_flatMap cfg ws, fun g b0 b1 b2 b3 h0 h1 h2 h3 => ?_⟩
  rw [drop_flatMap_of_length length_chunk_toList, ← List.map_drop]
  rw [← Nat.add_zero (4 * g)] at h0
  rw [← List.getElem?_drop, drop_flatMap_of_length length_bytesOfWord] at h0 h1 h2 h3
  cases hws : ws.drop g with
  | nil => simp [hws] at h0
  | cons w rest =>
    simp only [hws, List.flatMap_cons, bytesOfWord, List.cons_append, List.getElem?_cons_zero, List.getElem?_cons_succ,
      Option.some.injEq] at h0 h1 h2 h3
    rw [List.map_cons, List.flatMap_cons, List.take_left' (length_chunk_toList _), ← wordOfBytes_toNat,
      BitVec.ofNat_toNat, BitVec.setWidth_eq, ← h0, ← h1, ← h2, ← h3, wordOfBytes_bytes]

/-- The bytes of a group value as numbers, most significant first. -/
theorem map_toNat_bytesOfWord (w : GroupWord) :
    (bytesOfWord w).map BitVec.toNat =
      [w.toNat / 2 ^ 24, w.toNat / 2 ^ 16 % 256, w.toNat / 2 ^ 8 % 256, w.toNat % 256] := by
  have := w.isLt
  simp only [bytesOfWord, List.map_cons, List.map_nil, extractLsb'_toNat_div, List.cons.injEq, and_true]
  omega

/-- Settles O44: the text is a list of groups that decode, and the buffer the list of their values. -/
theorem decodeCallGroupByGroup : Obligations.DecodeCallGroupByGroup := by
  intro cfg t b hok g c hc
  obtain ⟨cs, ws, rfl, rfl, hdecode⟩ := exists_decodeTo_of_decodeCall_ok cfg hok
  have hdrop : DecodeTo cfg (cs.drop g) (ws.drop g) := List.forall₂_drop g hdecode
  rw [drop_flatMap_of_length length_chunk_toList] at hc
  rw [drop_flatMap_of_length length_bytesOfWord]
  generalize cs.drop g = cs' at hdrop hc
  generalize ws.drop g = ws' at hdrop
  cases hdrop with
  | nil => simp [Chunk.toList] at hc
  | @cons c' w _ _ hgroup _ =>
    rw [List.flatMap_cons, List.take_left' (length_chunk_toList _)] at hc
    obtain rfl := chunk_toList_injective hc
    exact ⟨w, hgroup, by rw [List.flatMap_cons, List.take_left' (length_bytesOfWord _), map_toNat_bytesOfWord]⟩

/-- Settles O46: the groups before the first failing one decode and hold symbols only, and that group fails at its first
invalid character or, in strict mode, by its value. -/
theorem decodeCallReportsFirstFailure : Obligations.DecodeCallReportsFirstFailure := by
  refine fun cfg t hL => ⟨fun p x herr => ?invalidCharacter, fun g herr => ?numericOverflow⟩
  all_goals
    have heven : t.length % 5 = 0 := length_mod_of_decodeCall_ne cfg (by simp [herr])
    obtain ⟨pre, post, ws, c, e, rfl, hpre, hc, he⟩ := exists_first_error_of_decodeCall_error cfg herr heven
  case invalidCharacter =>
    have hlen := length_flatMap_of_length length_chunk_toList pre
    obtain ⟨i, y, rfl, hfirst⟩ | ⟨rfl, -⟩ := decGroup_error_cases cfg hc
    · obtain ⟨rfl, rfl⟩ := CallError.invalidCharacter.inj he
      obtain ⟨hat, hsymbol, hbefore⟩ := isSymbol_of_firstInvalid hL hfirst
      have hi := i.isLt
      have hdiv : (5 * pre.length + i.val) / 5 = pre.length := by omega
      rw [hdiv, take_flatMap_of_length length_chunk_toList, List.take_left, List.flatMap_append, List.flatMap_cons]
      refine ⟨?_, hsymbol, fun j z hj hz => ?_, _, decodeCall_of_decodeTo cfg hpre⟩
      · rw [List.getElem?_append_right (by omega), hlen, Nat.add_sub_cancel_left,
          List.getElem?_append_left (by exact hi), hat]
      · by_cases hin : j < 5 * pre.length
        · rw [List.getElem?_append_left (by omega)] at hz
          exact isSymbol_of_decodeTo hL hpre (List.mem_of_getElem? hz)
        · rw [List.getElem?_append_right (by omega), hlen,
            List.getElem?_append_left (by rw [length_chunk_toList]; omega)] at hz
          exact hbefore _ z (by omega) hz
    · simp [callError] at he
  case numericOverflow =>
    obtain ⟨i, y, rfl, -⟩ | ⟨rfl, -⟩ := decGroup_error_cases cfg hc
    · simp [callError] at he
    · obtain rfl := CallError.numericOverflow.inj he
      obtain ⟨hstrict, d, rfl, hge⟩ := (decGroup_eq_numericOverflow_iff hL).1 hc
      rw [drop_flatMap_of_length length_chunk_toList, take_flatMap_of_length length_chunk_toList, List.take_left,
        List.drop_left, List.flatMap_cons, List.take_left' (length_chunk_toList _)]
      exact ⟨hstrict, ⟨d, rfl, hge⟩, _, decodeCall_of_decodeTo cfg hpre⟩

/-- Settles O47: a text that decodes holds symbols only, and a group fails without InvalidCharacter in strict mode only. -/
theorem decodeCallRejectsNonAlphabet : Obligations.DecodeCallRejectsNonAlphabet := by
  intro cfg t x hL heven hx hno
  cases hdecode : decodeCall cfg t with
  | ok b =>
    obtain ⟨cs, ws, rfl, -, hcs⟩ := exists_decodeTo_of_decodeCall_ok cfg hdecode
    simp [isSymbol_of_decodeTo hL hcs hx] at hno
  | error e =>
    obtain ⟨pre, post, ws, c, e, -, -, hc, rfl⟩ := exists_first_error_of_decodeCall_error cfg hdecode heven
    refine ⟨_, rfl, ?_, fun hwrap => ?_⟩
    · cases e <;> simp [callError]
    · obtain ⟨i, y, rfl, -⟩ | ⟨-, hstrict, -⟩ := decGroup_error_cases cfg hc
      · exact ⟨_, _, rfl⟩
      · simp [hwrap] at hstrict

/-- Settles O48: the text is the list of the encoder's outputs, which decode to the group values of the buffer. -/
theorem bufferRoundTrip : Obligations.BufferRoundTrip := by
  intro cfg b hL heven
  obtain ⟨ws, rfl⟩ := exists_words b heven
  have hdecode := decodeTo_map_encGroup hL ws
  exact ⟨_, encodeCall_flatMap cfg ws, fun c => isSymbol_of_decodeTo hL hdecode, decodeCall_of_decodeTo cfg hdecode⟩

/-- Settles O49: an encoded buffer is a list of the encoder's outputs; such a list decodes to the values it was encoded
from, and in strict mode every text that decodes is one. -/
theorem textRoundTripExactlyCanonical : Obligations.TextRoundTripExactlyCanonical := by
  intro cfg t b hL hok
  rw [canonicalText_iff hL]
  obtain ⟨cs, ws, rfl, rfl, hdecode⟩ := exists_decodeTo_of_decodeCall_ok cfg hok
  refine ⟨⟨fun henc => ⟨ws, ?encoded⟩, fun ⟨vs, hvs⟩ => ?canonical⟩, fun hstrict => ⟨ws, ?strict⟩⟩
  case encoded => exact (Except.ok.inj ((encodeCall_flatMap cfg ws).symm.trans henc)).symm
  case canonical =>
    rw [hvs, decodeCall_of_decodeTo cfg (decodeTo_map_encGroup hL vs)] at hok
    rw [hvs, ← Except.ok.inj hok, encodeCall_flatMap]
  case strict => rw [eq_map_encGroup_of_decodeTo_strict hL hstrict hdecode]

end Sys2Proof.Machine
end

section
/-! PROOFS. 43_buffer_calls, 30_encoding: the sequencer's runs of requests give what the calls give. -/

namespace Sys2Proof.Machine

/-- Presenting a request and running until it is answered answers all pending requests, that one last. -/
theorem transact_eq (r : Request) (s : State) :
    transact r s = some ((present r s).answerAll, responseTo s.config r) := by
  have hrun := runSteps_pending_length (present r s)
  rw [present_pending, List.length_append, List.length_singleton] at hrun
  simp [transact, hrun]

/-- Issuing the request of an operation gives the operation's answer. -/
theorem exchange_eq (i : Instr) (s : State) :
    exchange i s = some ((present (encode i) s).answerAll, answerOf s.config i) := by
  rw [exchange, transact_eq, responseTo, answerOfRequest_encode]
  simp

/-- The state after a list of operations has been issued, one after another. -/
def issueAll : List Instr → State → State
  | [], s => s
  | i :: is, s => issueAll is (present (encode i) s).answerAll

@[simp] theorem issueAll_config (is : List Instr) (s : State) : (issueAll is s).config = s.config := by
  induction is generalizing s with
  | nil => rfl
  | cons i is ih => exact ih _

/-- Issuing two lists, one after the other. -/
theorem issueAll_append (is js : List Instr) (s : State) : issueAll (is ++ js) s = issueAll js (issueAll is s) := by
  induction is generalizing s with
  | nil => rfl
  | cons i is ih => exact ih _

/-- On an idle block the operations issued are the requests taken. -/
theorem issueAll_of_idle (is : List Instr) {s : State} (hidle : s.pending = []) :
    (issueAll is s).pending = [] ∧ (issueAll is s).answered = s.answered ++ is.map encode := by
  induction is generalizing s with
  | nil => exact ⟨hidle, (List.append_nil _).symm⟩
  | cons i is ih =>
    obtain ⟨hpending, hanswered⟩ := ih (answerAll_pending (present (encode i) s))
    refine ⟨hpending, hanswered.trans ?_⟩
    simp [hidle]

/-! ### ENCODE -/

/-- The run of `ENCODE` issues one `ENC` for each group value and collects the encoder's outputs. -/
theorem runEncodeGroups_flatMap (ws : List GroupWord) (s : State) :
    runEncodeGroups (ws.flatMap bytesOfWord) s =
      some (issueAll (ws.map .enc) s, (ws.map (encGroup s.config)).flatMap Chunk.toList) := by
  induction ws generalizing s with
  | nil => rfl
  | cons w ws ih =>
    simp only [List.flatMap_cons, bytesOfWord, List.cons_append, List.nil_append, runEncodeGroups, wordOfBytes_bytes,
      exchange_eq, answerOf]
    simp only [ih, unpackChars_packChars, answerAll_config, present_config, List.map_cons, List.flatMap_cons, issueAll]

/-- The pseudo-operation `ENCODE` stands for one `ENC` for each group value (30_encoding R53). -/
theorem expandEncode_flatMap (ws : List GroupWord) :
    expandEncode ((ws.flatMap bytesOfWord).map BitVec.toNat) = some (ws.map .enc) := by
  have hgroups : expandEncode.groups ((ws.flatMap bytesOfWord).map BitVec.toNat) = ws.map .enc := by
    induction ws with
    | nil => rfl
    | cons w ws ih =>
      simp only [List.flatMap_cons, bytesOfWord, List.cons_append, List.nil_append, List.map_cons, expandEncode.groups,
        AsmRequest.toInstr, byteOfNat_toNat, wordOfBytes_bytes, ih]
  have hbytes : ((ws.flatMap bytesOfWord).map BitVec.toNat).all (fun b => decide (b < 256)) = true := by
    rw [List.all_map, List.all_eq_true]
    exact fun b _ => decide_eq_true b.isLt
  have heven : ((ws.flatMap bytesOfWord).map BitVec.toNat).length % chunkBytes = 0 := by
    rw [List.length_map, length_flatMap_of_length length_bytesOfWord]
    exact Nat.mul_mod_right _ _
  rw [expandEncode, if_neg (by simp only [heven, hbytes]; simp), hgroups]

/-- Settles O51: each `ENC` of the run gives the encoder's output, which is what the call appends. -/
theorem encodeCallIsRunOfRequests : Obligations.EncodeCallIsRunOfRequests := by
  intro s b
  by_cases heven : b.length % 4 = 0
  · obtain ⟨ws, rfl⟩ := exists_words b heven
    refine ⟨issueAll (ws.map .enc) s, ?_, issueAll_config _ s, fun hidle => ?_⟩
    · rw [runEncode_of_even s heven, runEncodeGroups_flatMap, encodeCall_flatMap, Option.map_some]
    · obtain ⟨hpending, hanswered⟩ := issueAll_of_idle (ws.map .enc) hidle
      refine ⟨hpending, fun is his => ?_⟩
      rw [hanswered, Option.some.inj ((expandEncode_flatMap ws).symm.trans his)]
  · refine ⟨s, by rw [runEncode_of_uneven s heven, encodeCall_of_uneven s.config heven], rfl, fun hidle => ⟨hidle, ?_⟩⟩
    intro is his
    simp [expandEncode, heven] at his

/-! ### DECODE -/

/-- The `DEC` of a group. -/
def decInstr (c : Chunk Byte) : Instr := .dec c.c0 c.c1 c.c2 c.c3 c.c4

/-- The pseudo-operation `DECODE` stands for one `DEC` for each group (30_encoding R53). -/
theorem expandDecode_flatMap (cs : List (Chunk Byte)) :
    expandDecode ((cs.flatMap Chunk.toList).map fun c => Char.ofNat c.toNat) = some (cs.map decInstr) := by
  have hchar (b : Byte) : (Char.ofNat b.toNat).toNat = b.toNat := by
    have := b.isLt
    rw [Char.toNat_ofNat, if_pos (.inl (by omega))]
  have hgroups : expandDecode.groups ((cs.flatMap Chunk.toList).map fun c => Char.ofNat c.toNat) = cs.map decInstr := by
    induction cs with
    | nil => rfl
    | cons c cs ih =>
      simp only [List.flatMap_cons, Chunk.toList, List.cons_append, List.nil_append, List.map_cons, expandDecode.groups,
        AsmRequest.toInstr, hchar, byteOfNat_toNat, decInstr]
      rw [← ih]
  have hchars : ((cs.flatMap Chunk.toList).map fun c => Char.ofNat c.toNat).all (fun c => decide (c.toNat < 256)) =
      true := by
    rw [List.all_map, List.all_eq_true]
    exact fun b _ => decide_eq_true ((hchar b).trans_lt b.isLt)
  have heven : ((cs.flatMap Chunk.toList).map fun c => Char.ofNat c.toNat).length % chunkChars = 0 := by
    rw [List.length_map, length_flatMap_of_length length_chunk_toList]
    exact Nat.mul_mod_right _ _
  rw [expandDecode, if_neg (by simp only [heven, hchars]; simp), hgroups]

/-- The end of a run with more output before what it gave; an error has none. -/
def prependOutput (out : List Byte) (p : State × Except CallError (List Byte)) : State × Except CallError (List Byte) :=
  (p.1, p.2.map (out ++ ·))

@[simp] theorem prependOutput_nil (p : State × Except CallError (List Byte)) : prependOutput [] p = p := by
  obtain ⟨t, e | out⟩ := p <;> rfl

@[simp] theorem prependOutput_prependOutput (a b : List Byte) (p : State × Except CallError (List Byte)) :
    prependOutput a (prependOutput b p) = prependOutput (a ++ b) p := by
  obtain ⟨t, e | out⟩ := p
  · rfl
  · simp [prependOutput, Except.map]

section
variable {s : State} {c : Chunk Byte}

/-- The run of `DECODE` goes on after a group that decodes. -/
theorem runDecodeGroups_append_of_ok {w : GroupWord} (h : decGroup s.config c = .ok w) (g : Nat) (rest : List Byte) :
    runDecodeGroups g (c.toList ++ rest) s =
      (runDecodeGroups (g + 1) rest (issueAll [decInstr c] s)).map (prependOutput (bytesOfWord w)) := by
  have hanswer := exchange_eq (.dec c.c0 c.c1 c.c2 c.c3 c.c4) s
  rw [answerOf_dec_of_ok h] at hanswer
  simp only [Chunk.toList, List.cons_append, List.nil_append, runDecodeGroups, hanswer, unpackWord_packWord, issueAll,
    decInstr]
  obtain _ | ⟨t, e | out⟩ :=
    runDecodeGroups (g + 1) rest (present (encode (.dec c.c0 c.c1 c.c2 c.c3 c.c4)) s).answerAll <;> rfl

/-- The run of `DECODE` stops after a group that does not decode. -/
theorem runDecodeGroups_append_of_error {e : DecError} (h : decGroup s.config c = .error e) (g : Nat)
    (rest : List Byte) :
    runDecodeGroups g (c.toList ++ rest) s = some (issueAll [decInstr c] s, .error (callError g e)) := by
  have hanswer := exchange_eq (.dec c.c0 c.c1 c.c2 c.c3 c.c4) s
  rw [answerOf_dec_of_error h] at hanswer
  cases e <;> simp only [Chunk.toList, List.cons_append, List.nil_append, runDecodeGroups, hanswer, DecError.toError,
    issueAll, decInstr]

end

/-- The run of `DECODE` issues one `DEC` for each group as long as the groups decode. -/
theorem runDecodeGroups_append_of_decodeTo {cfg : Config} {pre : List (Chunk Byte)} {ws : List GroupWord}
    (h : DecodeTo cfg pre ws) {s : State} (hs : s.config = cfg) (g : Nat) (rest : List Byte) :
    runDecodeGroups g (pre.flatMap Chunk.toList ++ rest) s =
      (runDecodeGroups (g + pre.length) rest (issueAll (pre.map decInstr) s)).map
        (prependOutput (ws.flatMap bytesOfWord)) := by
  induction h generalizing s g with
  | nil => simp [funext prependOutput_nil, issueAll]
  | cons hgroup _ ih =>
    subst hs
    rw [List.flatMap_cons, List.append_assoc, runDecodeGroups_append_of_ok hgroup, ih (issueAll_config _ s),
      List.length_cons, Nat.add_right_comm, Option.map_map]
    simp only [Function.comp_def, prependOutput_prependOutput, List.flatMap_cons, List.map_cons, issueAll]
    rfl

/-- The run of `DECODE` over groups that all decode. -/
theorem runDecode_of_decodeTo {s : State} {cs : List (Chunk Byte)} {ws : List GroupWord}
    (h : DecodeTo s.config cs ws) :
    runDecode (cs.flatMap Chunk.toList) s = some (issueAll (cs.map decInstr) s, .ok (ws.flatMap bytesOfWord)) := by
  rw [runDecode_of_even s (by rw [length_flatMap_of_length length_chunk_toList]; omega), ← List.append_nil (cs.flatMap _),
    runDecodeGroups_append_of_decodeTo h rfl, runDecodeGroups_nil]
  simp [prependOutput, Except.map]

/-- The run of `DECODE` over groups the first failing one of which is `c`. -/
theorem runDecode_of_first_error {s : State} {pre post : List (Chunk Byte)} {ws : List GroupWord} {c : Chunk Byte}
    {e : DecError} (h : DecodeTo s.config pre ws) (hgroup : decGroup s.config c = .error e) :
    runDecode ((pre ++ c :: post).flatMap Chunk.toList) s =
      some (issueAll ((pre ++ [c]).map decInstr) s, .error (callError pre.length e)) := by
  rw [runDecode_of_even s (by rw [length_flatMap_of_length length_chunk_toList]; omega), List.flatMap_append,
    runDecodeGroups_append_of_decodeTo h rfl, List.flatMap_cons, runDecodeGroups_append_of_error (by simpa using hgroup),
    Nat.zero_add, List.map_append, issueAll_append]
  rfl

/-- Settles O52: each `DEC` of the run gives what `DecGroup` gives, and the run stops where the call does. -/
theorem decodeCallIsRunOfRequests : Obligations.DecodeCallIsRunOfRequests := by
  intro s x
  by_cases heven : x.length % 5 = 0
  · obtain ⟨cs, rfl⟩ := exists_chunks x heven
    obtain ⟨ws, hws⟩ | ⟨pre, post, ws, c, e, rfl, hpre, hc⟩ := decodeTo_or_first_error s.config cs
    · have hcall := decodeCall_of_decodeTo s.config hws
      refine ⟨_, by rw [runDecode_of_decodeTo hws, hcall], issueAll_config _ s, fun hidle _ => ?_⟩
      obtain ⟨hpending, hanswered⟩ := issueAll_of_idle (cs.map decInstr) hidle
      refine ⟨hpending, _, expandDecode_flatMap cs, fun _ => hanswered, fun e he => ?_⟩
      simp [hcall] at he
    · have hcall := decodeCall_of_first_error s.config (post := post) hpre hc
      refine ⟨_, by rw [runDecode_of_first_error hpre hc, hcall], issueAll_config _ s, fun hidle _ => ?_⟩
      obtain ⟨hpending, hanswered⟩ := issueAll_of_idle ((pre ++ [c]).map decInstr) hidle
      have htake : (pre ++ c :: post).take (pre.length + 1) = pre ++ [c] := by simp [List.take_append]
      refine ⟨hpending, _, expandDecode_flatMap _, fun ⟨b, hb⟩ => ?_, fun e' he' => ⟨pre.length, ?_, ?_, ?_, ?_⟩⟩
      · cases hcall.symm.trans hb
      · simp
      · rw [hanswered, ← List.map_take, htake]
      · rw [take_flatMap_of_length length_chunk_toList, List.take_left]
        exact ⟨_, decodeCall_of_decodeTo s.config hpre⟩
      · rw [take_flatMap_of_length length_chunk_toList, htake, decodeCall_of_first_error s.config hpre hc, ← he', hcall]
  · refine ⟨s, by rw [runDecode_of_uneven s heven, decodeCall_of_uneven s.config heven], rfl, ?_⟩
    exact fun _ heven' => absurd heven' heven

end Sys2Proof.Machine
end
